-- ==== Sys2Proof/Word.lean ====
section
/-! DEFINITION. The word types of the Num3072 engine: what the spec treats as bits. -/

namespace Sys2Proof

/-- One byte of operand memory (R40). -/
abbrev Byte := BitVec 8

/-- A 32-bit command word, and the contents of a 32-bit control register (R28, R60). -/
abbrev Word := BitVec 32

/-- A place for one limb. A limb is `W` bits (R8) and `W` is 32 or 64 (R7): both fit in 64 bits,
and when `W` is 32 the upper half is zero (`State.Wf` of Safety.lean says so). -/
abbrev Limb := BitVec 64

/-- The contents of one element register: any value in `[0, 2^3072)` (R21, R23). -/
abbrev Element := BitVec 3072

end Sys2Proof
end

