-- ==== Sys2Proof/Config.lean ====
section
/-! DEFINITION. What an instance of the engine fixes when it is built (R7, R10), the hardwired
constants (R4), and the free values: what the spec calls unspecified and no proof may know. -/

namespace Sys2Proof

/-- The limb width `W` of an instance: 32 or 64 (R7). -/
inductive LimbWidth where
  | w32
  | w64
  deriving DecidableEq, Repr

/-- `W` in bits (R7). -/
def LimbWidth.bits : LimbWidth → Nat
  | .w32 => 32
  | .w64 => 64

/-- `LIMBS = 3072 / W`: 96 when `W` is 32, 48 when `W` is 64 (R8; 90_conflicts.md C1). -/
def LimbWidth.limbs : LimbWidth → Nat
  | .w32 => 96
  | .w64 => 48

/-- The build-time parameters of one instance that a rule depends on (R10, U11): the limb width and
the size of operand memory in bytes. No command changes them. -/
structure Config where
  width     : LimbWidth
  omemBytes : Nat
  deriving DecidableEq, Repr

/-- `OMEM_BYTES` is open between 384 and 65536 (R10, R40). -/
abbrev Config.Wf (c : Config) : Prop := 384 ≤ c.omemBytes ∧ c.omemBytes ≤ 65536

/-- The instance that `State.reset` is built for: the default `OMEM_BYTES` of R10, and `W` 64.
DESIGN CHOICE (assumption 1): the spec leaves `W` open. Unsafe: no statement may rest on it. -/
def Config.standard : Config := { width := .w64, omemBytes := 8192 }

/-- `PRIME_DIFF` (R4). -/
def primeDiff : Nat := 1103717

/-- The modulus `p = 2^3072 − PRIME_DIFF` (R4). -/
def modulus : Nat := 2 ^ 3072 - primeDiff

/-- `NREG`, the number of element registers (R10, R21). -/
def nreg : Nat := 8

/-- `KMAX`, the largest squaring count of `SQNMUL` (R10). -/
def kmax : Nat := 4095

/-- The command-set revision that `ID` reports (R1, R31). -/
def revision : Nat := 1

/-- The size of an element image in bytes (R44). -/
def imageBytes : Nat := 384

/-- FREE VALUE (assumptions 3 and 4): the 3072-bit values the spec calls unspecified, one for each
value of the counter `State.draws`: a register after an inverse or a division by a value congruent
to 0 (R148, U1), and the destination after an `INVARIANT` fault (R179, U3). It has no body, so no
proof knows any of its values. -/
opaque Config.freeElement : Nat → Element

end Sys2Proof
end

