-- ==== Sys2Proof/Syntax.lean ====
section
/-! DEFINITION. The commands of the Num3072 command set, revision 1: one constructor for each row of
spec/opcode_table.json (R65). A pseudo-instruction (R78) is no command: Machine/Assembly.lean. -/

namespace Sys2Proof

/-- The eight element registers `E0 .. E7` (R21). -/
inductive Reg where
  | e0 | e1 | e2 | e3 | e4 | e5 | e6 | e7
  deriving DecidableEq, Repr

/-- The accumulator selected by the `t` field: `t = 0` is `ACC`, `t = 1` is `DACC` (R63). -/
inductive AccSel where
  | acc
  | dacc
  deriving DecidableEq, Repr

/-- A command with its operands (R61 to R65, R76). `k` is a squaring count, `addr` a byte address of
operand memory, `ia` and `ib` limb indices: unsigned numbers, used as they stand (R64). -/
inductive Instr where
  | nop
  | setone (rd : Reg)
  | cpy (rd rs : Reg)
  | isovf (rd : Reg)
  | fred (rd : Reg)
  | canon (rd : Reg)
  | cmpeq (rd rs : Reg)
  | clrflg
  | mul (rd rs : Reg)
  | sqr (rd : Reg)
  | inv (rd rs : Reg)
  | div (rd rs : Reg)
  | sqnmul (rd rs : Reg) (k : Nat)
  | ld (rd : Reg) (addr : Nat)
  | ldc (rd : Reg) (addr : Nat)
  | st (rd : Reg) (addr : Nat)
  | clracc (t : AccSel)
  | mul2 (t : AccSel) (ra : Reg) (ia : Nat) (rb : Reg) (ib : Nat)
  | muladd3 (t : AccSel) (ra : Reg) (ia : Nat) (rb : Reg) (ib : Nat)
  | muldbladd3 (t : AccSel) (ra : Reg) (ia : Nat) (rb : Reg) (ib : Nat)
  | mulnadd3
  | muln2
  | extract3 (t : AccSel) (ra : Reg) (ia : Nat)
  | addnextract2 (ra : Reg) (ia : Nat) (rb : Reg) (ib : Nat)
  deriving DecidableEq, Repr

/-- Why a word is no command. -/
inductive Reject where
  /-- The word matches no row of R65 (R67): an unassigned opcode, or a nonzero bit in a field the
  command does not use. Raised by the decoder; the engine then takes the fault `ILLEGAL_COMMAND`. -/
  | illegalCommand (word : Word)
  deriving DecidableEq, Repr

end Sys2Proof
end

