-- ==== Sys2Proof/WellFormed.lean ====
section
/-! DEFINITION. Which terms of `Instr` a command word can hold (R61 to R64): the widths of the number
fields. A limb index that fits its field but is `≥ LIMBS` is well formed: "the word still decodes to
its command; the fault is by value" (R70). -/

namespace Sys2Proof

/-- `k` fits the 12-bit field of format R (R61): `0 .. KMAX`. -/
abbrev countFits (k : Nat) : Prop := k ≤ kmax

/-- `addr` fits the 16-bit field of format M (R62). -/
abbrev addrFits (addr : Nat) : Prop := addr < 2 ^ 16

/-- A limb index fits its 7-bit field of format L (R63). -/
abbrev indexFits (i : Nat) : Prop := i < 2 ^ 7

/-- Every number operand of the command fits its field. -/
def Instr.wf : Instr → Bool
  | .sqnmul _ _ k => decide (countFits k)
  | .ld _ addr => decide (addrFits addr)
  | .ldc _ addr => decide (addrFits addr)
  | .st _ addr => decide (addrFits addr)
  | .mul2 _ _ ia _ ib => decide (indexFits ia ∧ indexFits ib)
  | .muladd3 _ _ ia _ ib => decide (indexFits ia ∧ indexFits ib)
  | .muldbladd3 _ _ ia _ ib => decide (indexFits ia ∧ indexFits ib)
  | .extract3 _ _ ia => decide (indexFits ia)
  | .addnextract2 _ ia _ ib => decide (indexFits ia ∧ indexFits ib)
  | .nop => true
  | .setone _ => true
  | .cpy _ _ => true
  | .isovf _ => true
  | .fred _ => true
  | .canon _ => true
  | .cmpeq _ _ => true
  | .clrflg => true
  | .mul _ _ => true
  | .sqr _ => true
  | .inv _ _ => true
  | .div _ _ => true
  | .clracc _ => true
  | .mulnadd3 => true
  | .muln2 => true

end Sys2Proof
end

