-- ==== Sys2Proof/Decode.lean ====
section
/-! DEFINITION. The decoder, by the mask and match columns of the opcode map (R65, R66), and after it
the encoder, by the formats R, M and L (R61 to R63). A word that matches no row is rejected by name. -/

namespace Sys2Proof

/-! ### Fields of a command word (R61 to R64): none is sign-extended, scaled or shifted -/

/-- The register that a 3-bit field names (R21: every value names one). -/
def Reg.ofBits (b : BitVec 3) : Reg :=
  match b.toNat with
  | 0 => .e0
  | 1 => .e1
  | 2 => .e2
  | 3 => .e3
  | 4 => .e4
  | 5 => .e5
  | 6 => .e6
  | _ => .e7

/-- The accumulator that the `t` bit names (R63). -/
def AccSel.ofBits (b : BitVec 1) : AccSel := if b = 0 then .acc else .dacc

/-- `rd`, bits 23:21 of formats R and M. -/
def fieldRd (w : Word) : Reg := Reg.ofBits (w.extractLsb' 21 3)
/-- `rs`, bits 20:18 of format R. -/
def fieldRs (w : Word) : Reg := Reg.ofBits (w.extractLsb' 18 3)
/-- `k`, bits 11:0 of format R. -/
def fieldK (w : Word) : Nat := (w.extractLsb' 0 12).toNat
/-- `addr`, bits 15:0 of format M. -/
def fieldAddr (w : Word) : Nat := (w.extractLsb' 0 16).toNat
/-- `t`, bit 23 of format L. -/
def fieldT (w : Word) : AccSel := AccSel.ofBits (w.extractLsb' 23 1)
/-- `ra`, bits 22:20 of format L. -/
def fieldRa (w : Word) : Reg := Reg.ofBits (w.extractLsb' 20 3)
/-- `ia`, bits 19:13 of format L. -/
def fieldIa (w : Word) : Nat := (w.extractLsb' 13 7).toNat
/-- `rb`, bits 12:10 of format L. -/
def fieldRb (w : Word) : Reg := Reg.ofBits (w.extractLsb' 10 3)
/-- `ib`, bits 9:3 of format L. -/
def fieldIb (w : Word) : Nat := (w.extractLsb' 3 7).toNat

/-! ### The opcode map (R65) -/

/-- One row of the opcode map: a word is the command iff its bits under `mask` are `value` (R65);
`build` reads the fields the row uses. -/
structure Row where
  mnemonic : String
  mask     : Word
  value    : Word
  build    : Word → Instr

/-- `(w AND mask) = match` (R65). -/
def Row.matches (r : Row) (w : Word) : Bool := w &&& r.mask == r.value

/-- Opcodes 0x00 to 0x07, element housekeeping (R65). -/
def rowsElement : List Row := [
  ⟨"NOP",    0xFFFFFFFF#32, 0x00000000#32, fun _ => .nop⟩,
  ⟨"SETONE", 0xFF1FFFFF#32, 0x01000000#32, fun w => .setone (fieldRd w)⟩,
  ⟨"CPY",    0xFF03FFFF#32, 0x02000000#32, fun w => .cpy (fieldRd w) (fieldRs w)⟩,
  ⟨"ISOVF",  0xFF1FFFFF#32, 0x03000000#32, fun w => .isovf (fieldRd w)⟩,
  ⟨"FRED",   0xFF1FFFFF#32, 0x04000000#32, fun w => .fred (fieldRd w)⟩,
  ⟨"CANON",  0xFF1FFFFF#32, 0x05000000#32, fun w => .canon (fieldRd w)⟩,
  ⟨"CMPEQ",  0xFF03FFFF#32, 0x06000000#32, fun w => .cmpeq (fieldRd w) (fieldRs w)⟩,
  ⟨"CLRFLG", 0xFFFFFFFF#32, 0x07000000#32, fun _ => .clrflg⟩]

/-- Opcodes 0x10 to 0x14, field arithmetic (R65). -/
def rowsField : List Row := [
  ⟨"MUL",    0xFF03FFFF#32, 0x10000000#32, fun w => .mul (fieldRd w) (fieldRs w)⟩,
  ⟨"SQR",    0xFF1FFFFF#32, 0x11000000#32, fun w => .sqr (fieldRd w)⟩,
  ⟨"INV",    0xFF03FFFF#32, 0x12000000#32, fun w => .inv (fieldRd w) (fieldRs w)⟩,
  ⟨"DIV",    0xFF03FFFF#32, 0x13000000#32, fun w => .div (fieldRd w) (fieldRs w)⟩,
  ⟨"SQNMUL", 0xFF03F000#32, 0x14000000#32, fun w => .sqnmul (fieldRd w) (fieldRs w) (fieldK w)⟩]

/-- Opcodes 0x20 to 0x22, memory (R65). -/
def rowsMemory : List Row := [
  ⟨"LD",  0xFF1F0000#32, 0x20000000#32, fun w => .ld (fieldRd w) (fieldAddr w)⟩,
  ⟨"LDC", 0xFF1F0000#32, 0x21000000#32, fun w => .ldc (fieldRd w) (fieldAddr w)⟩,
  ⟨"ST",  0xFF1F0000#32, 0x22000000#32, fun w => .st (fieldRd w) (fieldAddr w)⟩]

/-- Opcodes 0x30 to 0x37, limb operations (R65). -/
def rowsLimb : List Row := [
  ⟨"CLRACC", 0xFF7FFFFF#32, 0x30000000#32, fun w => .clracc (fieldT w)⟩,
  ⟨"MUL2",   0xFF000007#32, 0x31000000#32,
    fun w => .mul2 (fieldT w) (fieldRa w) (fieldIa w) (fieldRb w) (fieldIb w)⟩,
  ⟨"MULADD3", 0xFF000007#32, 0x32000000#32,
    fun w => .muladd3 (fieldT w) (fieldRa w) (fieldIa w) (fieldRb w) (fieldIb w)⟩,
  ⟨"MULDBLADD3", 0xFF000007#32, 0x33000000#32,
    fun w => .muldbladd3 (fieldT w) (fieldRa w) (fieldIa w) (fieldRb w) (fieldIb w)⟩,
  ⟨"MULNADD3", 0xFFFFFFFF#32, 0x34000000#32, fun _ => .mulnadd3⟩,
  ⟨"MULN2",    0xFFFFFFFF#32, 0x35000000#32, fun _ => .muln2⟩,
  ⟨"EXTRACT3", 0xFF001FFF#32, 0x36000000#32,
    fun w => .extract3 (fieldT w) (fieldRa w) (fieldIa w)⟩,
  ⟨"ADDNEXTRACT2", 0xFF800007#32, 0x37000000#32,
    fun w => .addnextract2 (fieldRa w) (fieldIa w) (fieldRb w) (fieldIb w)⟩]

/-- The 24 rows of R65. -/
def rows : List Row := rowsElement ++ rowsField ++ rowsMemory ++ rowsLimb

/-- Decoding (R66): the row the word matches, with its fields; a word that matches none is rejected
(R67). Total on all `2^32` words. -/
def decode (w : Word) : Except Reject Instr :=
  match rows.find? (fun r => r.matches w) with
  | some r => .ok (r.build w)
  | none => .error (.illegalCommand w)

/-- What the decoder reads from a table row's word of `nbits` bits, bit 0 the least significant bit of
the word written to `CMD` (R60). Every command is one 32-bit word, so there are no further words. -/
def decodeTableWord (nbits w : Nat) : Option Instr :=
  match decode (BitVec.ofNat 32 (w % 2 ^ nbits)) with
  | .ok i => some i
  | .error _ => none

/-! ### The encoder (R61 to R65) -/

/-- The number of a register, as its 3-bit field holds it. -/
def Reg.bits : Reg → BitVec 3
  | .e0 => 0
  | .e1 => 1
  | .e2 => 2
  | .e3 => 3
  | .e4 => 4
  | .e5 => 5
  | .e6 => 6
  | .e7 => 7

/-- The `t` bit of an accumulator (R63). -/
def AccSel.bits : AccSel → BitVec 1
  | .acc => 0
  | .dacc => 1

/-- Format R (R61): `op ‖ rd ‖ rs ‖ 000000 ‖ k`. -/
def wordR (op : BitVec 8) (rd rs : BitVec 3) (k : BitVec 12) : Word :=
  op ++ rd ++ rs ++ 0#6 ++ k

/-- Format M (R62): `op ‖ rd ‖ 00000 ‖ addr`. -/
def wordM (op : BitVec 8) (rd : BitVec 3) (addr : BitVec 16) : Word :=
  op ++ rd ++ 0#5 ++ addr

/-- Format L (R63): `op ‖ t ‖ ra ‖ ia ‖ rb ‖ ib ‖ 000`. -/
def wordL (op : BitVec 8) (t : BitVec 1) (ra : BitVec 3) (ia : BitVec 7) (rb : BitVec 3)
    (ib : BitVec 7) : Word :=
  op ++ t ++ ra ++ ia ++ rb ++ ib ++ 0#3

/-- The command word of a command (R61 to R65): unused fields are zero. Meant for a well-formed
command; a number too large for its field is cut to the field. -/
def encode : Instr → Word
  | .nop => wordR 0x00 0 0 0
  | .setone rd => wordR 0x01 rd.bits 0 0
  | .cpy rd rs => wordR 0x02 rd.bits rs.bits 0
  | .isovf rd => wordR 0x03 rd.bits 0 0
  | .fred rd => wordR 0x04 rd.bits 0 0
  | .canon rd => wordR 0x05 rd.bits 0 0
  | .cmpeq rd rs => wordR 0x06 rd.bits rs.bits 0
  | .clrflg => wordR 0x07 0 0 0
  | .mul rd rs => wordR 0x10 rd.bits rs.bits 0
  | .sqr rd => wordR 0x11 rd.bits 0 0
  | .inv rd rs => wordR 0x12 rd.bits rs.bits 0
  | .div rd rs => wordR 0x13 rd.bits rs.bits 0
  | .sqnmul rd rs k => wordR 0x14 rd.bits rs.bits (BitVec.ofNat 12 k)
  | .ld rd addr => wordM 0x20 rd.bits (BitVec.ofNat 16 addr)
  | .ldc rd addr => wordM 0x21 rd.bits (BitVec.ofNat 16 addr)
  | .st rd addr => wordM 0x22 rd.bits (BitVec.ofNat 16 addr)
  | .clracc t => wordL 0x30 t.bits 0 0 0 0
  | .mul2 t ra ia rb ib => wordL 0x31 t.bits ra.bits (BitVec.ofNat 7 ia) rb.bits (BitVec.ofNat 7 ib)
  | .muladd3 t ra ia rb ib =>
    wordL 0x32 t.bits ra.bits (BitVec.ofNat 7 ia) rb.bits (BitVec.ofNat 7 ib)
  | .muldbladd3 t ra ia rb ib =>
    wordL 0x33 t.bits ra.bits (BitVec.ofNat 7 ia) rb.bits (BitVec.ofNat 7 ib)
  | .mulnadd3 => wordL 0x34 0 0 0 0 0
  | .muln2 => wordL 0x35 0 0 0 0 0
  | .extract3 t ra ia => wordL 0x36 t.bits ra.bits (BitVec.ofNat 7 ia) 0 0
  | .addnextract2 ra ia rb ib =>
    wordL 0x37 0 ra.bits (BitVec.ofNat 7 ia) rb.bits (BitVec.ofNat 7 ib)

/-- The mnemonic of a command (R65). -/
def Instr.mnemonic : Instr → String
  | .nop => "NOP"
  | .setone _ => "SETONE"
  | .cpy _ _ => "CPY"
  | .isovf _ => "ISOVF"
  | .fred _ => "FRED"
  | .canon _ => "CANON"
  | .cmpeq _ _ => "CMPEQ"
  | .clrflg => "CLRFLG"
  | .mul _ _ => "MUL"
  | .sqr _ => "SQR"
  | .inv _ _ => "INV"
  | .div _ _ => "DIV"
  | .sqnmul _ _ _ => "SQNMUL"
  | .ld _ _ => "LD"
  | .ldc _ _ => "LDC"
  | .st _ _ => "ST"
  | .clracc _ => "CLRACC"
  | .mul2 _ _ _ _ _ => "MUL2"
  | .muladd3 _ _ _ _ _ => "MULADD3"
  | .muldbladd3 _ _ _ _ _ => "MULDBLADD3"
  | .mulnadd3 => "MULNADD3"
  | .muln2 => "MULN2"
  | .extract3 _ _ _ => "EXTRACT3"
  | .addnextract2 _ _ _ _ => "ADDNEXTRACT2"

end Sys2Proof
end

