-- ==== Sys2Proof/Machine/State.lean ====
section
/-! DEFINITION. The state of the engine and of its host, plain data: every piece of state that
10_state.md gives the machine, then the model's own fields; the reasons a step can stop; and the
state after reset (R39). -/

namespace Sys2Proof.Machine

/-- The element registers `E0 .. E7`, 3072 bits each (R21). -/
structure Regs where
  e0 : Element
  e1 : Element
  e2 : Element
  e3 : Element
  e4 : Element
  e5 : Element
  e6 : Element
  e7 : Element
  deriving DecidableEq, Repr

/-- A three-limb accumulator `(low, high, carry)`: `ACC = (c0, c1, c2)` (R24), `DACC = (d0, d1, d2)`
(R25). -/
structure Acc where
  low   : Limb
  high  : Limb
  carry : Limb
  deriving DecidableEq, Repr

/-- The three flags of `FLAGS`; its bits 31:3 read as 0 (R26). -/
structure Flags where
  /-- Bit 0, `OV`: the tested value was `≥ p`. -/
  ov  : Bool
  /-- Bit 1, `EQ`: the two registers held the same 3072 bits. -/
  eq  : Bool
  /-- Bit 2, `AOV`: sticky accumulator overflow. -/
  aov : Bool
  deriving DecidableEq, Repr

/-- The fault causes, with code 0 for "no fault so far" (R171). Codes 5 to 15 never appear (U6). -/
inductive Cause where
  | none
  | illegalCommand
  | limbIndex
  | omemRange
  | invariant
  deriving DecidableEq, Repr

/-- Operand memory `OMEM` (R40) as a list of (address, byte) pairs: addresses strictly rising, no
entry with the byte an unlisted address reads as (`Memory.Wf` of Ops.lean). -/
abbrev Memory := List Host.Cell

/-- What a platform reset leaves in the state that R39 calls unspecified: the draw comes with the
reset event, so a statement about every state holds for every draw (U2). -/
structure ResetDraw where
  regs : Regs
  /-- The bytes of operand memory from address 0 on. -/
  omem : List Byte
  deriving DecidableEq, Repr

/-- One event of the one stream of R52, other than the engine's own work: what the host does between
commands (R20, R28, R29, R37, R42), or the platform's reset (R190). -/
inductive HostAction where
  /-- The host reads control register `n`. -/
  | csrRead (n : Nat)
  /-- The host writes control register `n`; a write to `CMD`, number 6, issues a command (R29). -/
  | csrWrite (n : Nat) (w : Word)
  /-- The host reads `n` bytes of operand memory from `addr`. -/
  | omemRead (addr n : Nat)
  /-- The host writes bytes to operand memory from `addr` on. -/
  | omemWrite (addr : Nat) (bytes : List Byte)
  /-- The platform resets the engine. -/
  | reset (draw : ResetDraw)
  deriving DecidableEq, Repr

/-- What the host got from a read. -/
inductive Reply where
  | word (w : Word)
  | bytes (bs : List Byte)
  deriving DecidableEq, Repr

/-- The whole machine. `cfg`, `draws`, `script` and `reply` are the model's own fields; the rest is
the state of 10_state.md. There is no program counter (R27) and no scratch state (R38). -/
structure State where
  /-- The build-time parameters, which `ID` and `OMEMSZ` report (R10, R31, R35). Nothing writes it. -/
  cfg    : Config
  /-- `E0 .. E7` (R21). -/
  regs   : Regs
  /-- `ACC` (R24). -/
  acc    : Acc
  /-- `DACC` (R25). -/
  dacc   : Acc
  /-- `FLAGS` (R26). -/
  flags  : Flags
  /-- `STATUS.FAULT` (R32). -/
  fault  : Bool
  /-- `CAUSE` (R33). -/
  cause  : Cause
  /-- `FCMD`, the command word that faulted (R34). -/
  fcmd   : Word
  /-- `OMEM` (R40). -/
  omem   : Memory
  /-- How many free values have been drawn (assumption 3). -/
  draws  : Nat
  /-- What the host and the platform will do next, in order (R27, R52; assumption 6). -/
  script : List HostAction
  /-- What the host's latest read returned (assumption 6). -/
  reply  : Option Reply
  deriving DecidableEq, Repr

/-- Why the machine stops. The four faults of the engine are none of these: they are taken as R172
describes, in a next state. -/
inductive Fault where
  /-- The host addresses bytes outside operand memory, which the spec says do not exist (R40). Raised
  by `hostAct` on `omemRead` and `omemWrite` alone, never by a command. Safe: the model stops where
  the platform decides (R50 leaves the host's mapping open). -/
  | hostOutsideOmem (addr n : Nat)
  deriving DecidableEq, Repr

/-- Why a step has no meaning. -/
inductive Refusal where
  /-- The command has no meaning in this model yet. Raised by an arm of `exec`; no arm raises it now.
  Safe: nothing can be proved of such a command. -/
  | notModelled (mnemonic : String)
  deriving DecidableEq, Repr

/-- A cleared accumulator. -/
def Acc.zero : Acc := { low := 0, high := 0, carry := 0 }

/-- Element registers all 0. R39 calls the registers unspecified after reset; 0 is this model's value
for `State.reset` alone. DESIGN CHOICE (assumption 2), unsafe. -/
def Regs.zero : Regs :=
  { e0 := 0, e1 := 0, e2 := 0, e3 := 0, e4 := 0, e5 := 0, e6 := 0, e7 := 0 }

/-- The engine of instance `cfg` right after reset, where the element registers happen to hold `regs`
and operand memory `omem` (R39, R191); the host has nothing to do yet. -/
def State.afterReset (cfg : Config) (regs : Regs) (omem : Memory) : State :=
  { cfg := cfg, regs := regs, acc := Acc.zero, dacc := Acc.zero,
    flags := { ov := false, eq := false, aov := false },
    fault := false, cause := .none, fcmd := 0, omem := omem,
    draws := 0, script := [], reply := none }

/-- The machine right after reset (R39), for the instance `Config.standard`. Element registers 0,
memory with nothing listed, and that instance are DESIGN CHOICES (assumptions 1, 2 and 5). -/
def State.reset : State := State.afterReset Config.standard Regs.zero []

end Sys2Proof.Machine
end

