-- ==== Sys2Proof/Machine/Ops.lean ====
section
/-! DEFINITION. The named operations over registers, accumulators and memory, the element image, and
taking a fault, with the only way back from one, the platform's reset. -/

namespace Sys2Proof.Machine

/-! ### Element registers (R14, R21) -/

/-- Read element register `r`. -/
def Regs.get (g : Regs) : Reg → Element
  | .e0 => g.e0
  | .e1 => g.e1
  | .e2 => g.e2
  | .e3 => g.e3
  | .e4 => g.e4
  | .e5 => g.e5
  | .e6 => g.e6
  | .e7 => g.e7

/-- Write element register `r`. -/
def Regs.set (g : Regs) (r : Reg) (v : Element) : Regs :=
  match r with
  | .e0 => { g with e0 := v }
  | .e1 => { g with e1 := v }
  | .e2 => { g with e2 := v }
  | .e3 => { g with e3 := v }
  | .e4 => { g with e4 := v }
  | .e5 => { g with e5 := v }
  | .e6 => { g with e6 := v }
  | .e7 => { g with e7 := v }

/-- `E[r]` (R14). -/
def State.reg (s : State) (r : Reg) : Element := s.regs.get r

/-- `E[r] <- v` (R14). -/
def State.setReg (s : State) (r : Reg) (v : Element) : State := { s with regs := s.regs.set r v }

/-! ### Accumulators (R14, R63) -/

/-- `A[t]`: `ACC` for `t = 0`, `DACC` for `t = 1` (R14). -/
def State.accum (s : State) : AccSel → Acc
  | .acc => s.acc
  | .dacc => s.dacc

/-- Write `A[t]`. -/
def State.setAccum (s : State) (t : AccSel) (a : Acc) : State :=
  match t with
  | .acc => { s with acc := a }
  | .dacc => { s with dacc := a }

/-- Write `FLAGS`. -/
def State.setFlags (s : State) (f : Flags) : State := { s with flags := f }

/-! ### Operand memory (R40, R41) -/

/-- What an address that the list does not name reads as. The spec gives operand memory no contents
after reset (R39). DESIGN CHOICE (assumption 5), unsafe. -/
def blankByte : Byte := 0

/-- Read one byte of operand memory. -/
def Memory.read (m : Memory) (addr : Nat) : Byte :=
  match m with
  | [] => blankByte
  | (a, b) :: rest => if a = addr then b else Memory.read rest addr

/-- The entries at addresses `addr .. addr+n−1`. -/
def Memory.window (m : Memory) (addr n : Nat) : Memory :=
  m.filter fun c => decide (addr ≤ c.1 ∧ c.1 < addr + n)

/-- `m` without its first entry, where that entry is at `addr` or below. -/
def Memory.advance (m : Memory) (addr : Nat) : Memory :=
  match m with
  | [] => []
  | c :: rest => if c.1 ≤ addr then rest else c :: rest

/-- The bytes at `addr .. addr+n−1`, lowest address first; an entry passed is not looked at again. -/
def Memory.readRun (m : Memory) (addr : Nat) : Nat → List Byte
  | 0 => []
  | n + 1 => Memory.read m addr :: Memory.readRun (Memory.advance m addr) (addr + 1) n

/-- `MemRead(addr, n)`: the list `[OMEM[addr], …, OMEM[addr+n−1]]` (R41); `Memory.readBytes_eq` of
Laws/Memory.lean says so byte by byte. -/
def Memory.readBytes (m : Memory) (addr n : Nat) : List Byte :=
  Memory.readRun (Memory.window m addr n) addr n

/-- The entries that bytes stored from `addr` on make: none for a byte that an unlisted address reads
as, so that equal memories are equal lists. -/
def Memory.block (addr : Nat) : List Byte → Memory
  | [] => []
  | b :: bs =>
    if b = blankByte then Memory.block (addr + 1) bs else (addr, b) :: Memory.block (addr + 1) bs

/-- `MemWrite(addr, n, b)` with `n` the length of `b`: `OMEM[addr+k] <- b[k]` (R41). -/
def Memory.writeBytes (m : Memory) (addr : Nat) (bs : List Byte) : Memory :=
  (m.filter fun c => decide (c.1 < addr)) ++ Memory.block addr bs ++
    (m.filter fun c => decide (addr + bs.length ≤ c.1))

/-- The canonical form of a memory: addresses strictly rising, no entry with the byte an unlisted
address reads as. -/
abbrev Memory.Wf (m : Memory) : Prop :=
  m.Pairwise (fun c d => c.1 < d.1) ∧ ∀ c ∈ m, c.2 ≠ blankByte

/-! ### The element image (R44) -/

/-- `le(b) = Σ_k b[k]·2^(8k)` (R14). -/
def leValue : List Byte → Nat
  | [] => 0
  | b :: bs => b.toNat + 2 ^ 8 * leValue bs

/-- `bytes_le(v, 384)`: byte `k` is `v[8k+7 : 8k]` (R44). -/
def imageOf (v : Element) : List Byte :=
  (List.range imageBytes).map fun k => v.extractLsb' (8 * k) 8

/-- The value of an image (R44). -/
def elementOf (bs : List Byte) : Element := BitVec.ofNat 3072 (leValue bs)

/-! ### Taking a fault (R171, R172) -/

/-- `raise Fault(cause)` by command word `w` (R172): `CAUSE`, `FCMD` and `STATUS.FAULT` are written
and nothing else changes. Control goes nowhere: the engine has no program counter (R27). -/
def State.raiseFault (s : State) (c : Cause) (w : Word) : State :=
  { s with fault := true, cause := c, fcmd := w }

/-- A free value in register `r`: any 3072-bit value (U3), the next draw. -/
def State.drawReg (s : State) (r : Reg) : State :=
  { s.setReg r (Config.freeElement s.draws) with draws := s.draws + 1 }

/-- `Fault(INVARIANT)` of a command with destination `rd` (R179): the one fault found after part of
the work is done, so the destination is then unspecified. -/
def State.raiseInvariant (s : State) (rd : Reg) (w : Word) : State :=
  (s.drawReg rd).raiseFault .invariant w

/-! ### The way back from a fault (R183, R190) -/

/-- The platform's reset (R190, R191): the only event that clears `STATUS.FAULT`. The accumulators,
`FLAGS`, `STATUS`, `CAUSE` and `FCMD` become 0; the element registers and operand memory become
whatever the draw says, since the spec leaves them unspecified (R39, U2). -/
def State.platformReset (s : State) (d : ResetDraw) : State :=
  { State.afterReset s.cfg d.regs (Memory.writeBytes [] 0 (d.omem.take s.cfg.omemBytes)) with
    draws := s.draws, script := s.script, reply := s.reply }

end Sys2Proof.Machine
end

