-- ==== Sys2Proof/Machine/Field.lean ====
section
/-! DEFINITION. The pure functions of 3072-bit values that the element commands are made of (R15):
`IsOverflow`, `FullReduce`, `Canon`, `MulP`, `SqrP`, `SqnMul`, `GetInverse`, `Divide`. None reads a
limb, so none depends on `W` (R9). `none` stands for the failed assertion of R123, `Fault(INVARIANT)`. A large constant stands on the
left of `+` and `*`, where the kernel does not count it down. -/

namespace Sys2Proof.Machine

/-- `IsOverflow(x)`: `x ≥ p` (R101). -/
def isOverflow (x : Element) : Bool := decide (modulus ≤ x.toNat)

/-- `FullReduce(x) = u_3072(x + PRIME_DIFF)`, total (R102). -/
def fullReduce (x : Element) : Element := BitVec.ofNat 3072 (primeDiff + x.toNat)

/-- `Canon(x)`: one conditional `FullReduce` (R103). -/
def canonical (x : Element) : Element := if isOverflow x then fullReduce x else x

/-- `MulP(a, b) = (a · b) mod p` (R121): the value `mulFold` is to have. -/
def mulP (a b : Element) : Element := BitVec.ofNat 3072 (a.toNat * b.toNat % modulus)

/-- One fold by `2^3072 ≡ PRIME_DIFF (mod p)` (R6): `H·2^3072 + L` becomes `L + H·PRIME_DIFF`. -/
def fold (v : Nat) : Nat := v % 2 ^ 3072 + primeDiff * (v / 2 ^ 3072)

/-- Steps 4 and 5 of `Mul` (R124), for a second reduction that left the value `v`. The assertion of
R123 first: what lies above bit 3071, `carryLow` with `carryHigh`, is 0 or 1. Then one `FullReduce`
if it is 1, and one if the value is `≥ p`; both tests are made in every call. -/
def finishMul (v : Nat) : Option Element :=
  if v / 2 ^ 3072 ≤ 1 then
    some (canonical
      (if v / 2 ^ 3072 = 1 then fullReduce (BitVec.ofNat 3072 v) else BitVec.ofNat 3072 v))
  else none

/-- `Mul` (R120 to R124) on values: the product, the first and the second reduction as R129 writes
them (`T = Lo + PRIME_DIFF·Hi`, then `T'`), the assertions and the final canonicalisation. The limb
algorithm of R122 and R123 is in Datapath.lean. DEDUCED (assumption 7). -/
def mulFold (a b : Element) : Option Element :=
  finishMul (fold (fold (a.toNat * b.toNat)))

/-- `Square`: the value of `Mul` with both operands the same (R126, R127). -/
def sqrFold (a : Element) : Option Element := mulFold a a

/-- `r` squared `k` times (R141). -/
def squarings : Nat → Element → Option Element
  | 0, r => some r
  | k + 1, r =>
    match sqrFold r with
    | some q => squarings k q
    | none => none

/-- `SqnMul(r, k, m)`: square `r` exactly `k` times, then multiply by `m` (R141). -/
def sqnMul (r : Element) (k : Nat) (m : Element) : Option Element :=
  match squarings k r with
  | some q => mulFold q m
  | none => none

/-- The powers table from entry `i` on, `n` more entries after it: each from the one before,
`powers[i+1] = SqnMul(powers[i], 2^i, powers[i])` (R142). -/
def powersFrom : (n i : Nat) → Element → Option (List Element)
  | 0, _, q => some [q]
  | n + 1, i, q =>
    match sqnMul q (2 ^ i) q with
    | some q' =>
      match powersFrom n (i + 1) q' with
      | some rest => some (q :: rest)
      | none => none
    | none => none

/-- `powers[0..11]` of `x` (R142). -/
def powersTable (x : Element) : Option (List Element) := powersFrom 11 0 x

/-- The fourteen `(k, m)` pairs of the chain, in order (R142). -/
def chain : List (Nat × Nat) :=
  [(512, 9), (256, 8), (128, 7), (64, 6), (32, 5), (8, 3), (2, 1), (1, 0), (5, 2), (3, 0), (2, 0),
   (4, 0), (4, 1), (3, 0)]

/-- The chain steps `res = SqnMul(res, k, powers[m])` (R142). -/
def runChain (powers : List Element) : List (Nat × Nat) → Element → Option Element
  | [], res => some res
  | (k, m) :: rest, res =>
    match sqnMul res k (powers.getD m 0) with
    | some res' => runChain powers rest res'
    | none => none

/-- `GetInverse(x)` (R142): the powers table, then the chain from `powers[11]`. -/
def getInverse (x : Element) : Option Element :=
  match powersTable x with
  | some powers => runChain powers chain (powers.getD 11 0)
  | none => none

/-- `Divide(x, y)` (R146): canonicalise both, invert `y`, multiply, canonicalise. -/
def divide (x y : Element) : Option Element :=
  match getInverse (canonical y) with
  | some yInv =>
    match mulFold (canonical x) yInv with
    | some r => some (canonical r)
    | none => none
  | none => none

/-- `x` is congruent to 0 modulo `p`: the stored value 0 or the stored value `p` (R148). -/
def isZeroMod (x : Element) : Bool := decide (x.toNat % modulus = 0)

end Sys2Proof.Machine
end

