-- ==== Sys2Proof/Machine/Arith.lean ====
section
/-! DEFINITION. The meanings of the field arithmetic commands (42_mul_square.md, 43_inverse_divide.md).
Every operand is read before the destination is written (R71, R130); no flag, `ACC` or `DACC` is
touched. `Fault(INVARIANT)` stays in every meaning (R179): that no input reaches it (R129) is for a
proof to say. -/

namespace Sys2Proof.Machine

/-- The end of a field operation by command word `w`: the result into `rd`, or `Fault(INVARIANT)`. -/
def State.finishField (s : State) (rd : Reg) (w : Word) (result : Option Element) : State :=
  match result with
  | some v => s.setReg rd v
  | none => s.raiseInvariant rd w

/-- The result of an inverse of, or a division by, a value congruent to 0: undefined (R148), any
canonical value (U1; R23 and R149 keep it below `p`), the next draw (assumption 3). -/
def State.drawCanonical (s : State) (rd : Reg) : State :=
  { s.setReg rd (canonical (Config.freeElement s.draws)) with draws := s.draws + 1 }

/-- `MUL Ed, Es` (R125). -/
def execMul (rd rs : Reg) (s : State) : Host.Outcome State Fault Refusal :=
  .next (s.finishField rd (encode (.mul rd rs)) (mulFold (s.reg rd) (s.reg rs)))

/-- `SQR Ed` (R128). -/
def execSqr (rd : Reg) (s : State) : Host.Outcome State Fault Refusal :=
  .next (s.finishField rd (encode (.sqr rd)) (sqrFold (s.reg rd)))

/-- `INV Ed, Es` (R145): the source is not canonicalised first. A source congruent to 0: R148. -/
def execInv (rd rs : Reg) (s : State) : Host.Outcome State Fault Refusal :=
  if isZeroMod (s.reg rs) then .next (s.drawCanonical rd)
  else .next (s.finishField rd (encode (.inv rd rs)) (getInverse (s.reg rs)))

/-- `DIV Ed, Es` (R147): `E[rs]` is not written. A divisor congruent to 0: R148. -/
def execDiv (rd rs : Reg) (s : State) : Host.Outcome State Fault Refusal :=
  if isZeroMod (s.reg rs) then .next (s.drawCanonical rd)
  else .next (s.finishField rd (encode (.div rd rs)) (divide (s.reg rd) (s.reg rs)))

/-- `SQNMUL Ed, Es, k` (R144): with `rs = rd` the multiplier is the value held at issue. -/
def execSqnmul (rd rs : Reg) (k : Nat) (s : State) : Host.Outcome State Fault Refusal :=
  .next (s.finishField rd (encode (.sqnmul rd rs k)) (sqnMul (s.reg rd) k (s.reg rs)))

end Sys2Proof.Machine
end

