-- ==== Sys2Proof/Machine/Flags.lean ====
section
/-! DEFINITION. The flag computations (R26) and the `FLAGS` word. -/

namespace Sys2Proof.Machine

/-- `FLAGS.OV <- v`, the other flags unchanged (R107, R162). -/
def Flags.withOv (f : Flags) (v : Bool) : Flags := { f with ov := v }

/-- `FLAGS.EQ <- v`, the other flags unchanged (R110). -/
def Flags.withEq (f : Flags) (v : Bool) : Flags := { f with eq := v }

/-- The sticky `FLAGS.AOV`: set to 1 when `v`, never to 0 (R83). -/
def Flags.stickAov (f : Flags) (v : Bool) : Flags := { f with aov := f.aov || v }

/-- All three flags cleared (R111). -/
def Flags.cleared : Flags := { ov := false, eq := false, aov := false }

/-- A flag as a number. -/
def flagBit (b : Bool) : Nat := if b then 1 else 0

/-- `FLAGS` as the host reads it: `OV` is bit 0, `EQ` bit 1, `AOV` bit 2, bits 31:3 are 0 (R26). -/
def Flags.word (f : Flags) : Word :=
  BitVec.ofNat 32 (flagBit f.ov + 2 * flagBit f.eq + 4 * flagBit f.aov)

end Sys2Proof.Machine
end

