-- ==== Sys2Proof/Machine/Element.lean ====
section
/-! DEFINITION. The meanings of the element housekeeping commands (41_element_basic.md). None raises a
fault once its word has decoded; none touches memory, `ACC` or `DACC`. -/

namespace Sys2Proof.Machine

/-- `NOP` (R104). -/
def execNop (s : State) : Host.Outcome State Fault Refusal := .next s

/-- `SETONE Ed` (R105): `E[rd] <- 1`. -/
def execSetone (rd : Reg) (s : State) : Host.Outcome State Fault Refusal := .next (s.setReg rd 1)

/-- `CPY Ed, Es` (R106): all 3072 bits, no reduction. -/
def execCpy (rd rs : Reg) (s : State) : Host.Outcome State Fault Refusal :=
  .next (s.setReg rd (s.reg rs))

/-- `ISOVF Es` (R107): the register tested is in field `rd`; only `OV` is written. -/
def execIsovf (rd : Reg) (s : State) : Host.Outcome State Fault Refusal :=
  .next (s.setFlags (s.flags.withOv (isOverflow (s.reg rd))))

/-- `FRED Ed` (R108): unconditional `FullReduce`; the top carry is recorded nowhere. -/
def execFred (rd : Reg) (s : State) : Host.Outcome State Fault Refusal :=
  .next (s.setReg rd (fullReduce (s.reg rd)))

/-- `CANON Ed` (R109). -/
def execCanon (rd : Reg) (s : State) : Host.Outcome State Fault Refusal :=
  .next (s.setReg rd (canonical (s.reg rd)))

/-- `CMPEQ Ea, Eb` (R110): equality of all 3072 bits, not equality modulo `p`; only `EQ` is written. -/
def execCmpeq (rd rs : Reg) (s : State) : Host.Outcome State Fault Refusal :=
  .next (s.setFlags (s.flags.withEq (decide (s.reg rd = s.reg rs))))

/-- `CLRFLG` (R111): `STATUS`, `CAUSE` and `FCMD` are not cleared. -/
def execClrflg (s : State) : Host.Outcome State Fault Refusal := .next (s.setFlags Flags.cleared)

end Sys2Proof.Machine
end

