-- ==== Sys2Proof/Machine/Operands.lean ====
section
/-! DEFINITION. The operand forms: a limb of an element register (R22, R80), with the check on its index
(R70), and the address of an image (R160), with the check on its range (R47). -/

namespace Sys2Proof.Machine

/-- `v` cut to one limb: `u_W(v)` (R13). -/
def limbOf (w : LimbWidth) (v : Nat) : Limb := BitVec.ofNat 64 (v % 2 ^ w.bits)

/-- `limb(v, i) = v[W·i + W − 1 : W·i]` (R13, R22). -/
def limb (w : LimbWidth) (v : Element) (i : Nat) : Limb := limbOf w (v.toNat / 2 ^ (w.bits * i))

/-- `v` with limb `i` replaced by `u_W(x)`, the other bits unchanged (R14). -/
def setLimb (w : LimbWidth) (v : Element) (i : Nat) (x : Limb) : Element :=
  BitVec.ofNat 3072
    (v.toNat % 2 ^ (w.bits * i) + 2 ^ (w.bits * i) * (limbOf w x.toNat).toNat +
      2 ^ (w.bits * (i + 1)) * (v.toNat / 2 ^ (w.bits * (i + 1))))

/-- `E[r].limb[i]`, a word operand (R14, R80). -/
def State.word (s : State) (r : Reg) (i : Nat) : Limb := limb s.cfg.width (s.reg r) i

/-- `E[r].limb[i] <- x` (R14). -/
def State.setWord (s : State) (r : Reg) (i : Nat) (x : Limb) : State :=
  s.setReg r (setLimb s.cfg.width (s.reg r) i x)

/-- A limb index is valid only if it is `< LIMBS` (R64, R70, R177). -/
abbrev State.indexOk (s : State) (i : Nat) : Prop := i < s.cfg.width.limbs

/-- An image at `addr` lies inside operand memory: `addr + 384 ≤ OMEM_BYTES`, the sum not truncated
(R47, R160). -/
abbrev State.imageFits (s : State) (addr : Nat) : Prop := addr + imageBytes ≤ s.cfg.omemBytes

/-- The bytes `addr .. addr+n−1` lie inside operand memory (R41). -/
abbrev State.bytesFit (s : State) (addr n : Nat) : Prop := addr + n ≤ s.cfg.omemBytes

/-- The element whose image is at `addr`: `le(MemRead(addr, 384))` (R161). -/
def State.loadImage (s : State) (addr : Nat) : Element :=
  elementOf (Memory.readBytes s.omem addr imageBytes)

/-- `MemWrite(addr, 384, bytes_le(v, 384))` (R163). -/
def State.storeImage (s : State) (addr : Nat) (v : Element) : State :=
  { s with omem := Memory.writeBytes s.omem addr (imageOf v) }

end Sys2Proof.Machine
end

