-- ==== Sys2Proof/Machine/LimbOps.lean ====
section
/-! DEFINITION. The limb operations, the source's layer L0 (40_limbops.md), as functions of accumulators
and limbs. The limb-level commands (Limb.lean) and the datapath of `Mul` and `Square` (Datapath.lean)
are both written in them (R120). All numbers are unsigned and exact until they are cut (R80, R83). -/

namespace Sys2Proof.Machine

/-- An accumulator after an operation that may lose bits, and whether it lost any (R83). -/
structure AccResult where
  acc : Acc
  ovf : Bool
  deriving DecidableEq, Repr

/-- An accumulator after an extraction, and the limb taken. -/
structure Extracted where
  acc : Acc
  out : Limb
  deriving DecidableEq, Repr

/-- `[low, high] = low + high·2^W` (R13). -/
def Acc.val2 (w : LimbWidth) (a : Acc) : Nat := a.low.toNat + 2 ^ w.bits * a.high.toNat

/-- `val3(A) = [low, high, carry]` (R13, R14). -/
def Acc.val3 (w : LimbWidth) (a : Acc) : Nat :=
  a.low.toNat + 2 ^ w.bits * a.high.toNat + 2 ^ (2 * w.bits) * a.carry.toNat

/-- The three limbs of `u_(3W)(v)` (R14). -/
def Acc.ofVal3 (w : LimbWidth) (v : Nat) : Acc :=
  { low := limbOf w v, high := limbOf w (v / 2 ^ w.bits), carry := limbOf w (v / 2 ^ (2 * w.bits)) }

/-- `A <-3 v`: `u_(3W)(v)`, with overflow iff `v ≥ 2^(3W)` (R14, R83). -/
def put3 (w : LimbWidth) (v : Nat) : AccResult :=
  { acc := Acc.ofVal3 w v, ovf := decide (2 ^ (3 * w.bits) ≤ v) }

/-- `mul(a, b)`: the product in the two low limbs, 0 in the carry limb (R85). -/
def mul2 (w : LimbWidth) (a b : Limb) : Acc :=
  let v := a.toNat * b.toNat
  { low := limbOf w v, high := limbOf w (v / 2 ^ w.bits), carry := 0 }

/-- `muladd3`: `[low, high, carry] += a·b` (R86). -/
def muladd3 (w : LimbWidth) (acc : Acc) (a b : Limb) : AccResult :=
  put3 w (acc.val3 w + a.toNat * b.toNat)

/-- `muldbladd3`: `[low, high, carry] += 2·a·b` (R87). -/
def muldbladd3 (w : LimbWidth) (acc : Acc) (a b : Limb) : AccResult :=
  put3 w (acc.val3 w + 2 * a.toNat * b.toNat)

/-- `mulnadd3`: `[c0, c1, c2] += n·[d0, d1, d2]`, with no check that `c2` is 0 (R88). The constant `n`
is always `PRIME_DIFF` (R64). -/
def mulnadd3 (w : LimbWidth) (acc dacc : Acc) (n : Nat) : AccResult :=
  put3 w (acc.val3 w + n * dacc.val3 w)

/-- `muln2`: `[c0, c1] *= n`; `c2` is neither read nor written; overflow iff the product is
`≥ 2^(2W)` (R83, R89). The constant `n` is always `PRIME_DIFF` (R64). -/
def muln2 (w : LimbWidth) (acc : Acc) (n : Nat) : AccResult :=
  let v := n * acc.val2 w
  { acc := { low := limbOf w v, high := limbOf w (v / 2 ^ w.bits), carry := acc.carry },
    ovf := decide (2 ^ (2 * w.bits) ≤ v) }

/-- `extract3`: take the lowest limb and shift right by one limb (R90). -/
def extract3 (acc : Acc) : Extracted :=
  { acc := { low := acc.high, high := acc.carry, carry := 0 }, out := acc.low }

/-- `addnextract2`: `[c0, c1] += a`, take the lowest limb, shift; the cascaded carry becomes the new
high limb; `c2` is neither read nor written (R91). -/
def addnextract2 (w : LimbWidth) (acc : Acc) (a : Limb) : Extracted :=
  let v := acc.val2 w + a.toNat
  { acc := { low := limbOf w (v / 2 ^ w.bits), high := limbOf w (v / 2 ^ (2 * w.bits)),
             carry := acc.carry },
    out := limbOf w v }

end Sys2Proof.Machine
end

