-- ==== Sys2Proof/Machine/Limb.lean ====
section
/-! DEFINITION. The meanings of the limb-level commands (40_limbops.md). The limb indices are checked
before any state changes (R81); word operands and accumulators are read before anything is written
(R82); a sum that does not fit sets the sticky `AOV` and the command retires (R83, R181). -/

namespace Sys2Proof.Machine

/-- Write an accumulation's result into `A[t]`, and `AOV` if bits were lost (R83). -/
def State.accumulate (s : State) (t : AccSel) (r : AccResult) : State :=
  (s.setAccum t r.acc).setFlags (s.flags.stickAov r.ovf)

/-- Write an extraction's result: the accumulator into `A[t]`, the limb into `E[r].limb[i]`. -/
def State.extract (s : State) (t : AccSel) (r : Reg) (i : Nat) (x : Extracted) : State :=
  (s.setAccum t x.acc).setWord r i x.out

/-- `CLRACC t` (R84): `AOV` is not cleared. -/
def execClracc (t : AccSel) (s : State) : Host.Outcome State Fault Refusal :=
  .next (s.setAccum t Acc.zero)

/-- `MUL2 t, Ea[i], Eb[j]` (R85). -/
def execMul2 (t : AccSel) (ra : Reg) (ia : Nat) (rb : Reg) (ib : Nat) (s : State) :
    Host.Outcome State Fault Refusal :=
  if s.indexOk ia ∧ s.indexOk ib then
    .next (s.setAccum t (mul2 s.cfg.width (s.word ra ia) (s.word rb ib)))
  else .next (s.raiseFault .limbIndex (encode (.mul2 t ra ia rb ib)))

/-- `MULADD3 t, Ea[i], Eb[j]` (R86). -/
def execMuladd3 (t : AccSel) (ra : Reg) (ia : Nat) (rb : Reg) (ib : Nat) (s : State) :
    Host.Outcome State Fault Refusal :=
  if s.indexOk ia ∧ s.indexOk ib then
    .next (s.accumulate t (muladd3 s.cfg.width (s.accum t) (s.word ra ia) (s.word rb ib)))
  else .next (s.raiseFault .limbIndex (encode (.muladd3 t ra ia rb ib)))

/-- `MULDBLADD3 t, Ea[i], Eb[j]` (R87). -/
def execMuldbladd3 (t : AccSel) (ra : Reg) (ia : Nat) (rb : Reg) (ib : Nat) (s : State) :
    Host.Outcome State Fault Refusal :=
  if s.indexOk ia ∧ s.indexOk ib then
    .next (s.accumulate t (muldbladd3 s.cfg.width (s.accum t) (s.word ra ia) (s.word rb ib)))
  else .next (s.raiseFault .limbIndex (encode (.muldbladd3 t ra ia rb ib)))

/-- `MULNADD3` (R88): `DACC` is not changed; `c2 = 0` on entry is not checked. -/
def execMulnadd3 (s : State) : Host.Outcome State Fault Refusal :=
  .next (s.accumulate .acc (mulnadd3 s.cfg.width s.acc s.dacc primeDiff))

/-- `MULN2` (R89): `c2` is neither read nor written. -/
def execMuln2 (s : State) : Host.Outcome State Fault Refusal :=
  .next (s.accumulate .acc (muln2 s.cfg.width s.acc primeDiff))

/-- `EXTRACT3 t, Ed[i]` (R90). -/
def execExtract3 (t : AccSel) (ra : Reg) (ia : Nat) (s : State) :
    Host.Outcome State Fault Refusal :=
  if s.indexOk ia then .next (s.extract t ra ia (extract3 (s.accum t)))
  else .next (s.raiseFault .limbIndex (encode (.extract3 t ra ia)))

/-- `ADDNEXTRACT2 Ed[i], Ea[j]` (R91): always on `ACC`. -/
def execAddnextract2 (ra : Reg) (ia : Nat) (rb : Reg) (ib : Nat) (s : State) :
    Host.Outcome State Fault Refusal :=
  if s.indexOk ia ∧ s.indexOk ib then
    .next (s.extract .acc ra ia (addnextract2 s.cfg.width s.acc (s.word rb ib)))
  else .next (s.raiseFault .limbIndex (encode (.addnextract2 ra ia rb ib)))

end Sys2Proof.Machine
end

