-- ==== Sys2Proof/Machine/Transfer.lean ====
section
/-! DEFINITION. The meanings of the memory commands (44_load_store.md): absolute addressing, 384 bytes,
no alignment (R46, R160), the range checked before anything is read or written (R47, R178). -/

namespace Sys2Proof.Machine

/-- `LD Ed, addr` (R161): any image, no reduction. -/
def execLd (rd : Reg) (addr : Nat) (s : State) : Host.Outcome State Fault Refusal :=
  if s.imageFits addr then .next (s.setReg rd (s.loadImage addr))
  else .next (s.raiseFault .omemRange (encode (.ld rd addr)))

/-- `LDC Ed, addr` (R162): an image whose value is `≥ p` sets `OV` and is not loaded, which is no fault
(R180); any other clears `OV` and is loaded. -/
def execLdc (rd : Reg) (addr : Nat) (s : State) : Host.Outcome State Fault Refusal :=
  if s.imageFits addr then
    if isOverflow (s.loadImage addr) then .next (s.setFlags (s.flags.withOv true))
    else .next ((s.setFlags (s.flags.withOv false)).setReg rd (s.loadImage addr))
  else .next (s.raiseFault .omemRange (encode (.ldc rd addr)))

/-- `ST Es, addr` (R163): the register stored is in field `rd`, stored as it is. -/
def execSt (rd : Reg) (addr : Nat) (s : State) : Host.Outcome State Fault Refusal :=
  if s.imageFits addr then .next (s.storeImage addr (s.reg rd))
  else .next (s.raiseFault .omemRange (encode (.st rd addr)))

end Sys2Proof.Machine
end

