-- ==== Sys2Proof/Machine/Dispatch.lean ====
section
/-! DEFINITION. One arm for each command, one direct call of its meaning. -/

namespace Sys2Proof.Machine

/-- Execute a decoded command (R66). -/
def exec (i : Instr) (s : State) : Host.Outcome State Fault Refusal :=
  match i with
  | .nop => Sys2Proof.Machine.execNop s
  | .setone rd => Sys2Proof.Machine.execSetone rd s
  | .cpy rd rs => Sys2Proof.Machine.execCpy rd rs s
  | .isovf rd => Sys2Proof.Machine.execIsovf rd s
  | .fred rd => Sys2Proof.Machine.execFred rd s
  | .canon rd => Sys2Proof.Machine.execCanon rd s
  | .cmpeq rd rs => Sys2Proof.Machine.execCmpeq rd rs s
  | .clrflg => Sys2Proof.Machine.execClrflg s
  | .mul rd rs => Sys2Proof.Machine.execMul rd rs s
  | .sqr rd => Sys2Proof.Machine.execSqr rd s
  | .inv rd rs => Sys2Proof.Machine.execInv rd rs s
  | .div rd rs => Sys2Proof.Machine.execDiv rd rs s
  | .sqnmul rd rs k => Sys2Proof.Machine.execSqnmul rd rs k s
  | .ld rd addr => Sys2Proof.Machine.execLd rd addr s
  | .ldc rd addr => Sys2Proof.Machine.execLdc rd addr s
  | .st rd addr => Sys2Proof.Machine.execSt rd addr s
  | .clracc t => Sys2Proof.Machine.execClracc t s
  | .mul2 t ra ia rb ib => Sys2Proof.Machine.execMul2 t ra ia rb ib s
  | .muladd3 t ra ia rb ib => Sys2Proof.Machine.execMuladd3 t ra ia rb ib s
  | .muldbladd3 t ra ia rb ib => Sys2Proof.Machine.execMuldbladd3 t ra ia rb ib s
  | .mulnadd3 => Sys2Proof.Machine.execMulnadd3 s
  | .muln2 => Sys2Proof.Machine.execMuln2 s
  | .extract3 t ra ia => Sys2Proof.Machine.execExtract3 t ra ia s
  | .addnextract2 ra ia rb ib => Sys2Proof.Machine.execAddnextract2 ra ia rb ib s

end Sys2Proof.Machine
end

