-- ==== Sys2Proof/Machine/Port.lean ====
section
/-! DEFINITION. The engine's host interface: the control registers (10_state.md), the issue of a command
(R29, R36), the host's accesses to operand memory (R37, R42), and the platform's reset (R190). -/

namespace Sys2Proof.Machine

/-! ### Control registers (R28, R30) -/

/-- The number of `CMD` (R30). -/
def csrCmd : Nat := 6

/-- `ID` (R31): `W`, `LIMBS`, `NREG` and the revision, one byte each, `W` the lowest. -/
def idWord (c : Config) : Word :=
  BitVec.ofNat 8 revision ++ BitVec.ofNat 8 nreg ++ BitVec.ofNat 8 c.width.limbs ++
    BitVec.ofNat 8 c.width.bits

/-- The cause codes (R171). -/
def Cause.code : Cause → Nat
  | .none => 0
  | .illegalCommand => 1
  | .limbIndex => 2
  | .omemRange => 3
  | .invariant => 4

/-- What a host read of control register `n` returns (R28, R30 to R36): `CMD` and every number above 6
read 0. -/
def State.csr (s : State) (n : Nat) : Word :=
  match n with
  | 0 => idWord s.cfg
  | 1 => BitVec.ofNat 32 (flagBit s.fault)
  | 2 => s.flags.word
  | 3 => BitVec.ofNat 32 s.cause.code
  | 4 => s.fcmd
  | 5 => BitVec.ofNat 32 s.cfg.omemBytes
  | _ => 0

/-! ### The issue of a command (R29, R36) -/

/-- A write of `w` to `CMD`. Faulted: the word is dropped, not decoded, and nothing changes (R173).
Otherwise decode and execute it; a word that is no command raises `Fault(ILLEGAL_COMMAND)` (R66, R67,
R176). The checks come in the order of R175: the word first, then the index or range, then the run. -/
def issue (w : Word) (s : State) : Host.Outcome State Fault Refusal :=
  if s.fault then .next s
  else
    match decode w with
    | .ok i => exec i s
    | .error (.illegalCommand bad) => .next (s.raiseFault .illegalCommand bad)

/-! ### One host action (R20, R28, R37, R52, R190) -/

/-- The effect of one event of the stream. A write to a read-only control register, or to a number
above 6, is ignored (R28). -/
def hostAct (a : HostAction) (s : State) : Host.Outcome State Fault Refusal :=
  match a with
  | .csrRead n => .next { s with reply := some (.word (s.csr n)) }
  | .csrWrite n w => if n = csrCmd then issue w s else .next s
  | .omemRead addr n =>
    if s.bytesFit addr n then .next { s with reply := some (.bytes (Memory.readBytes s.omem addr n)) }
    else .fault (.hostOutsideOmem addr n)
  | .omemWrite addr bs =>
    if s.bytesFit addr bs.length then .next { s with omem := Memory.writeBytes s.omem addr bs }
    else .fault (.hostOutsideOmem addr bs.length)
  | .reset draw => .next (s.platformReset draw)

/-- The next event of the stream. With none left the engine is idle and keeps all its state (R189,
R190). -/
def nextEvent (s : State) : Host.Outcome State Fault Refusal :=
  match s.script with
  | [] => .next s
  | a :: rest => hostAct a { s with script := rest }

end Sys2Proof.Machine
end

