-- ==== Sys2Proof/Machine/Step.lean ====
section
/-! DEFINITION. One step of the machine: one event of the one stream of R52, to completion (R29). -/

namespace Sys2Proof.Machine

/-- One step: the host's next action, and if it is a `CMD` write the whole command it issues. -/
def step (s : State) : Host.Outcome State Fault Refusal := nextEvent s

/-- `s` with the host about to write the word `w` of `nbits` bits to `CMD`: the very next step issues
it. There is no program counter and no fetch (R27, R55; assumption 6). -/
def State.withFetchWord (s : State) (nbits w : Nat) : State :=
  { s with script := .csrWrite csrCmd (BitVec.ofNat 32 (w % 2 ^ nbits)) :: s.script }

end Sys2Proof.Machine
end

