-- ==== Sys2Proof/Machine/Assembly.lean ====
section
/-! DEFINITION. The spec's assembler notation (R76, R77) and its pseudo-instructions (R78). They are
assembler macros only; the engine does not know them, and no other file of the machine reads this one. -/

namespace Sys2Proof.Machine

/-- `E0` to `E7` (R77). -/
def regName (r : Reg) : String := "E" ++ toString r.bits.toNat

/-- `ACC` or `DACC` (R77). -/
def accName : AccSel → String
  | .acc => "ACC"
  | .dacc => "DACC"

/-- A limb: the register followed by a bracketed index (R77). -/
def limbName (r : Reg) (i : Nat) : String := regName r ++ "[" ++ toString i ++ "]"

/-- The operands of a command in assembler order, the destination first (R76). -/
def operandNames : Instr → List String
  | .nop => []
  | .setone rd => [regName rd]
  | .cpy rd rs => [regName rd, regName rs]
  | .isovf rd => [regName rd]
  | .fred rd => [regName rd]
  | .canon rd => [regName rd]
  | .cmpeq rd rs => [regName rd, regName rs]
  | .clrflg => []
  | .mul rd rs => [regName rd, regName rs]
  | .sqr rd => [regName rd]
  | .inv rd rs => [regName rd, regName rs]
  | .div rd rs => [regName rd, regName rs]
  | .sqnmul rd rs k => [regName rd, regName rs, toString k]
  | .ld rd addr => [regName rd, toString addr]
  | .ldc rd addr => [regName rd, toString addr]
  | .st rd addr => [regName rd, toString addr]
  | .clracc t => [accName t]
  | .mul2 t ra ia rb ib => [accName t, limbName ra ia, limbName rb ib]
  | .muladd3 t ra ia rb ib => [accName t, limbName ra ia, limbName rb ib]
  | .muldbladd3 t ra ia rb ib => [accName t, limbName ra ia, limbName rb ib]
  | .mulnadd3 => []
  | .muln2 => []
  | .extract3 t ra ia => [accName t, limbName ra ia]
  | .addnextract2 ra ia rb ib => [limbName ra ia, limbName rb ib]

/-- `MNEMONIC operand, operand, …` (R76). -/
def assembly (i : Instr) : String :=
  match operandNames i with
  | [] => i.mnemonic
  | names => i.mnemonic ++ " " ++ ", ".intercalate names

/-- The pseudo-instructions of R78. -/
inductive Macro where
  /-- `MH.NEW En, Ed`, also `MH.RESET`. -/
  | mhNew (en ed : Reg)
  /-- `MH.CLONE En', Ed', En, Ed`. -/
  | mhClone (en' ed' en ed : Reg)
  /-- `MH.ADD En, Ex`. -/
  | mhAdd (en ex : Reg)
  /-- `MH.REMOVE Ed, Ex`. -/
  | mhRemove (ed ex : Reg)
  /-- `MH.COMBINE En, Ed, Fn, Fd`. -/
  | mhCombine (en ed fn fd : Reg)
  /-- `MH.NORMALIZE En, Ed`. -/
  | mhNormalize (en ed : Reg)
  /-- `MH.SERIALIZE En, Ed, addr`. -/
  | mhSerialize (en ed : Reg) (addr : Nat)
  /-- `MH.DESERIALIZE En, Ed, addr`; the host then reads `FLAGS.OV`. -/
  | mhDeserialize (en ed : Reg) (addr : Nat)
  /-- `ELEMENT Ex, addr`. -/
  | element (ex : Reg) (addr : Nat)
  deriving DecidableEq, Repr

/-- The commands a pseudo-instruction stands for, in order (R78). -/
def Macro.expand : Macro → List Instr
  | .mhNew en ed => [.setone en, .setone ed]
  | .mhClone en' ed' en ed => [.cpy en' en, .cpy ed' ed]
  | .mhAdd en ex => [.mul en ex]
  | .mhRemove ed ex => [.mul ed ex]
  | .mhCombine en ed fn fd => [.mul en fn, .mul ed fd]
  | .mhNormalize en ed => [.div en ed, .setone ed]
  | .mhSerialize en ed addr => [.div en ed, .setone ed, .st en addr]
  | .mhDeserialize en ed addr => [.ldc en addr, .setone ed]
  | .element ex addr => [.ld ex addr]

end Sys2Proof.Machine
end

