-- ==== Sys2Proof/Machine/Datapath.lean ====
section
/-! DEFINITION. The limb algorithm of `Mul` (R122 to R124) and of `Square` (R126), in the limb operations
of LimbOps.lean, on the private working accumulators `wc`, `wd` and the scratch elements `tmp`, `out`
(R38, R120). Nothing here reads or writes `ACC`, `DACC` or `FLAGS`. Field.lean gives the same functions
on values; which of the two a command is defined by is assumption 7. -/

namespace Sys2Proof.Machine

/-- A working accumulator, and whether any operation on it so far lost bits (R92 says none does). -/
structure Work where
  acc : Acc
  ovf : Bool
  deriving DecidableEq, Repr

/-- A cleared working accumulator: `(0, 0, 0)`. -/
def Work.zero : Work := { acc := Acc.zero, ovf := false }

/-- The working accumulator after an operation, losses remembered. -/
def Work.after (k : Work) (r : AccResult) : Work := { acc := r.acc, ovf := k.ovf || r.ovf }

/-- A working accumulator and the scratch element the limbs taken from it go to. -/
structure Partial where
  work : Work
  elem : Element
  deriving DecidableEq, Repr

/-- `muladd3(k; a[i], b[i'])` for every listed pair of indices, in order (R122). -/
def addProducts (w : LimbWidth) (a b : Element) (pairs : List (Nat × Nat)) (k : Work) : Work :=
  pairs.foldl (fun k p => k.after (muladd3 w k.acc (limb w a p.1) (limb w b p.2))) k

/-- `muldbladd3(k; x[i], x[i'])` for every listed pair of indices, in order (R126). -/
def addCrossTerms (w : LimbWidth) (x : Element) (pairs : List (Nat × Nat)) (k : Work) : Work :=
  pairs.foldl (fun k p => k.after (muldbladd3 w k.acc (limb w x p.1) (limb w x p.2))) k

/-- The index pairs of high column `L + j`: `i = j+1 .. L−1` with `L + j − i` (R122). -/
def highPairs (w : LimbWidth) (j : Nat) : List (Nat × Nat) :=
  (List.range (w.limbs - 1 - j)).map fun n => (j + 1 + n, w.limbs + j - (j + 1 + n))

/-- The index pairs of low column `j`: `i = 0 .. j` with `j − i` (R122). -/
def lowPairs (j : Nat) : List (Nat × Nat) := (List.range (j + 1)).map fun i => (i, j - i)

/-- The pairs of a column whose first index is the smaller: its cross terms (R126). -/
def crossPairs (pairs : List (Nat × Nat)) : List (Nat × Nat) :=
  pairs.filter fun p => decide (p.1 < p.2)

/-- `tmp[j] = extract3(wc)` (R122). -/
def takeLimb (w : LimbWidth) (k : Work) (tmp : Element) (j : Nat) : Partial :=
  let x := extract3 k.acc
  { work := { k with acc := x.acc }, elem := setLimb w tmp j x.out }

/-- One pass `j` of R122: the high column into `wd`, its fold into `wc`, the low column, one limb. -/
def mulPass (w : LimbWidth) (a b : Element) (q : Partial) (j : Nat) : Partial :=
  let wd := addProducts w a b (highPairs w j) Work.zero
  let wc := q.work.after (mulnadd3 w q.work.acc wd.acc primeDiff)
  let wc := addProducts w a b (lowPairs j) { wc with ovf := wc.ovf || wd.ovf }
  takeLimb w wc q.elem j

/-- Steps 1 and 2 of `Mul` (R122): the passes `j = 0 .. L−2`, then the top limb with no folding. The
scratch `tmp` is written before it is read (R38), so it starts at 0 here. -/
def mulColumns (w : LimbWidth) (a b : Element) : Partial :=
  let q := (List.range (w.limbs - 1)).foldl (mulPass w a b) { work := Work.zero, elem := 0 }
  takeLimb w (addProducts w a b (lowPairs (w.limbs - 1)) q.work) q.elem (w.limbs - 1)

/-- A square term `muladd3(k; x[i], x[i])`, made when the column number `j` is even, that is when
`j + 1` is odd (R126). -/
def addDiagonal (w : LimbWidth) (x : Element) (j i : Nat) (k : Work) : Work :=
  if j % 2 = 0 then addProducts w x x [(i, i)] k else k

/-- One pass `j` of R126: as `mulPass`, each column from its distinct pairs. -/
def sqrPass (w : LimbWidth) (x : Element) (q : Partial) (j : Nat) : Partial :=
  let wd := addCrossTerms w x (crossPairs (highPairs w j)) Work.zero
  let wd := addDiagonal w x j ((w.limbs + j) / 2) wd
  let wc := q.work.after (mulnadd3 w q.work.acc wd.acc primeDiff)
  let wc := addCrossTerms w x (crossPairs (lowPairs j)) { wc with ovf := wc.ovf || wd.ovf }
  takeLimb w (addDiagonal w x j (j / 2) wc) q.elem j

/-- Steps 1 and 2 of `Square` (R126): column `L − 1` is odd and has no diagonal term. -/
def sqrColumns (w : LimbWidth) (x : Element) : Partial :=
  let q := (List.range (w.limbs - 1)).foldl (sqrPass w x) { work := Work.zero, elem := 0 }
  takeLimb w (addCrossTerms w x (crossPairs (lowPairs (w.limbs - 1))) q.work) q.elem (w.limbs - 1)

/-- `out[j] = addnextract2(wc; tmp[j])` (R123). -/
def addLimb (w : LimbWidth) (tmp : Element) (q : Partial) (j : Nat) : Partial :=
  let x := addnextract2 w q.work.acc (limb w tmp j)
  { work := { q.work with acc := x.acc }, elem := setLimb w q.elem j x.out }

/-- Step 3 of `Mul` (R123): `muln2`, then one `addnextract2` for each limb. -/
def secondReduction (w : LimbWidth) (q : Partial) : Partial :=
  (List.range w.limbs).foldl (addLimb w q.elem)
    { work := q.work.after (muln2 w q.work.acc primeDiff), elem := 0 }

/-- The assertions of step 4 (R123), `none` where one fails, then steps 4 and 5 (R124). -/
def finishLimbs (q : Partial) : Option Element :=
  if q.work.acc.high ≠ 0 then none
  else if q.work.acc.low ≠ 0 ∧ q.work.acc.low ≠ 1 then none
  else
    let x := if q.work.acc.low = 1 then fullReduce q.elem else q.elem
    some (if isOverflow x then fullReduce x else x)

/-- What the datapath yields: the result, or `none` for `Fault(INVARIANT)`, and whether any
accumulator operation lost bits. -/
structure DatapathResult where
  result : Option Element
  ovf    : Bool
  deriving DecidableEq, Repr

/-- `Mul` at limb width `w` (R122 to R124). -/
def mulLimbs (w : LimbWidth) (a b : Element) : DatapathResult :=
  let q := secondReduction w (mulColumns w a b)
  { result := finishLimbs q, ovf := q.work.ovf }

/-- `Square` at limb width `w` (R126, then R123 and R124). -/
def sqrLimbs (w : LimbWidth) (x : Element) : DatapathResult :=
  let q := secondReduction w (sqrColumns w x)
  { result := finishLimbs q, ovf := q.work.ovf }

end Sys2Proof.Machine
end

