-- ==== Sys2Proof/Safety.lean ====
section
/-! DEFINITION. The terms the claims use: when a state is well formed, what a safe run is, which commands
are element-level, and what it means that nothing but a named part of the state changed. -/

namespace Sys2Proof.Machine

/-! ### Well-formed states -/

/-- Every limb of the accumulator is a `W`-bit value (R24, R25). -/
structure Acc.Fits (w : LimbWidth) (a : Acc) : Prop where
  low   : a.low.toNat < 2 ^ w.bits
  high  : a.high.toNat < 2 ^ w.bits
  carry : a.carry.toNat < 2 ^ w.bits

/-- What holds of the machine after reset and after every step: a legal instance (R10), accumulators of
`W`-bit limbs (R24, R25), operand memory in canonical form and inside its size (R40), and the fault
record empty exactly while the engine is not faulted (R32 to R34). -/
structure State.Wf (s : State) : Prop where
  config     : s.cfg.Wf
  acc        : s.acc.Fits s.cfg.width
  dacc       : s.dacc.Fits s.cfg.width
  memory     : Memory.Wf s.omem
  memoryFits : ∀ c ∈ s.omem, c.1 < s.cfg.omemBytes
  cause      : s.fault = false ↔ s.cause = .none
  fcmd       : s.fault = false → s.fcmd = 0

/-! ### Safe runs -/

/-- A successful run of `k` steps: the engine is not faulted at its start and not at its end (R173). -/
def RunsClean (k : Nat) (s t : State) : Prop :=
  s.fault = false ∧ Sys2Proof.core.run k s = .next t ∧ t.fault = false

/-- The event is a reset by the platform (R190). -/
def HostAction.isReset : HostAction → Bool
  | .csrRead _ => false
  | .csrWrite _ _ => false
  | .omemRead _ _ => false
  | .omemWrite _ _ => false
  | .reset _ => true

/-! ### Kinds of commands -/

/-- The limb-level commands are those of 40_limbops.md, opcodes 0x30 to 0x37; every other command is
element-level (R9). -/
def elementLevel : Instr → Bool
  | .clracc _ => false
  | .mul2 _ _ _ _ _ => false
  | .muladd3 _ _ _ _ _ => false
  | .muldbladd3 _ _ _ _ _ => false
  | .mulnadd3 => false
  | .muln2 => false
  | .extract3 _ _ _ => false
  | .addnextract2 _ _ _ _ => false
  | .nop => true
  | .setone _ => true
  | .cpy _ _ => true
  | .isovf _ => true
  | .fred _ => true
  | .canon _ => true
  | .cmpeq _ _ => true
  | .clrflg => true
  | .mul _ _ => true
  | .sqr _ => true
  | .inv _ _ => true
  | .div _ _ => true
  | .sqnmul _ _ _ => true
  | .ld _ _ => true
  | .ldc _ _ => true
  | .st _ _ => true

/-- The commands that reach operand memory: `LD`, `LDC`, `ST` (R42). -/
def reachesMemory : Instr → Bool
  | .ld _ _ => true
  | .ldc _ _ => true
  | .st _ _ => true
  | .nop => false
  | .setone _ => false
  | .cpy _ _ => false
  | .isovf _ => false
  | .fred _ => false
  | .canon _ => false
  | .cmpeq _ _ => false
  | .clrflg => false
  | .mul _ _ => false
  | .sqr _ => false
  | .inv _ _ => false
  | .div _ _ => false
  | .sqnmul _ _ _ => false
  | .clracc _ => false
  | .mul2 _ _ _ _ _ => false
  | .muladd3 _ _ _ _ _ => false
  | .muldbladd3 _ _ _ _ _ => false
  | .mulnadd3 => false
  | .muln2 => false
  | .extract3 _ _ _ => false
  | .addnextract2 _ _ _ _ => false

/-- The accumulator commands whose exact result may not fit, the only ones that set `AOV` (R26, R83). -/
def mayLoseBits : Instr → Bool
  | .muladd3 _ _ _ _ _ => true
  | .muldbladd3 _ _ _ _ _ => true
  | .mulnadd3 => true
  | .muln2 => true
  | .nop => false
  | .setone _ => false
  | .cpy _ _ => false
  | .isovf _ => false
  | .fred _ => false
  | .canon _ => false
  | .cmpeq _ _ => false
  | .clrflg => false
  | .mul _ _ => false
  | .sqr _ => false
  | .inv _ _ => false
  | .div _ _ => false
  | .sqnmul _ _ _ => false
  | .ld _ _ => false
  | .ldc _ _ => false
  | .st _ _ => false
  | .clracc _ => false
  | .mul2 _ _ _ _ _ => false
  | .extract3 _ _ _ => false
  | .addnextract2 _ _ _ _ => false

/-- The destination of a command whose result is always canonical (the table of R23, less `LDC`, which
may leave its destination alone). -/
def canonicalDest : Instr → Option Reg
  | .setone rd => some rd
  | .canon rd => some rd
  | .mul rd _ => some rd
  | .sqr rd => some rd
  | .inv rd _ => some rd
  | .div rd _ => some rd
  | .sqnmul rd _ _ => some rd
  | .nop => none
  | .cpy _ _ => none
  | .isovf _ => none
  | .fred _ => none
  | .cmpeq _ _ => none
  | .clrflg => none
  | .ld _ _ => none
  | .ldc _ _ => none
  | .st _ _ => none
  | .clracc _ => none
  | .mul2 _ _ _ _ _ => none
  | .muladd3 _ _ _ _ _ => none
  | .muldbladd3 _ _ _ _ _ => none
  | .mulnadd3 => none
  | .muln2 => none
  | .extract3 _ _ _ => none
  | .addnextract2 _ _ _ _ => none

/-! ### Frames: what a command leaves unchanged -/

/-- Every byte of operand memory reads as before. -/
def SameBytes (s t : State) : Prop := ∀ a, Memory.read t.omem a = Memory.read s.omem a

/-- Nothing but element register `rd` changed. -/
def OnlyReg (rd : Reg) (s t : State) : Prop :=
  (∀ r, r ≠ rd → t.reg r = s.reg r) ∧ SameBytes s t ∧ t = { s with regs := t.regs }

/-- Nothing but element register `rd` and the model's counter of draws changed. -/
def OnlyRegAndDraw (rd : Reg) (s t : State) : Prop :=
  (∀ r, r ≠ rd → t.reg r = s.reg r) ∧ SameBytes s t ∧
    t = { s with regs := t.regs, draws := s.draws + 1 }

/-- Nothing but `FLAGS` changed. -/
def OnlyFlags (s t : State) : Prop := SameBytes s t ∧ t = { s with flags := t.flags }

/-- Nothing but the accumulator `A[k]` changed. -/
def OnlyAccum (k : AccSel) (s t : State) : Prop :=
  (∀ j, j ≠ k → t.accum j = s.accum j) ∧ SameBytes s t ∧ t = { s with acc := t.acc, dacc := t.dacc }

/-- Nothing but the accumulator `A[k]` and `FLAGS.AOV` changed. -/
def OnlyAccumAndAov (k : AccSel) (s t : State) : Prop :=
  (∀ j, j ≠ k → t.accum j = s.accum j) ∧ t.flags.ov = s.flags.ov ∧ t.flags.eq = s.flags.eq ∧
    SameBytes s t ∧ t = { s with acc := t.acc, dacc := t.dacc, flags := t.flags }

/-- Nothing but the accumulator `A[k]` and limb `i` of element register `r` changed: every bit of the
register outside that limb is as before. -/
def OnlyAccumAndLimb (k : AccSel) (r : Reg) (i : Nat) (s t : State) : Prop :=
  (∀ j, j ≠ k → t.accum j = s.accum j) ∧ (∀ q, q ≠ r → t.reg q = s.reg q) ∧
    (∀ b, (b < s.cfg.width.bits * i ∨ s.cfg.width.bits * i + s.cfg.width.bits ≤ b) →
      (t.reg r).getLsbD b = (s.reg r).getLsbD b) ∧
    SameBytes s t ∧ t = { s with acc := t.acc, dacc := t.dacc, regs := t.regs }

/-- Nothing but the fault record changed, and it says that command word `w` raised `c` (R172). -/
def FaultTaken (c : Cause) (w : Word) (s t : State) : Prop :=
  t.fault = true ∧ t.cause = c ∧ t.fcmd = w ∧ (∀ r, t.reg r = s.reg r) ∧ SameBytes s t ∧
    t = { s with fault := t.fault, cause := t.cause, fcmd := t.fcmd }

/-- The same state in an instance of the other limb width, or of the same (R9). -/
def State.withWidth (s : State) (w : LimbWidth) : State :=
  { s with cfg := { s.cfg with width := w } }

/-- Limb `i` of the 3072-bit value `v` as a number: `v[W·i + W − 1 : W·i]` (R22). -/
def limbNat (w : LimbWidth) (v : Element) (i : Nat) : Nat :=
  v.toNat / 2 ^ (w.bits * i) % 2 ^ w.bits

end Sys2Proof.Machine
end

