-- ==== Sys2Proof/Certificates/Slice0/Obligations.lean ====
section
/-! DEFINITION. The statements for the provers. They are about every state, so about both limb widths and
every size of operand memory, and about no value that this model chose. -/

open Sys2Proof Sys2Proof.Machine

/-! ### Encoding (30_encoding.md) -/

/-- Every well-formed command, with every operand its encoding admits, decodes from its own word. -/
def Obligations.DecodeOfEncodeIsTheCommand : Prop :=
  ∀ i : Instr, i.wf = true → decode (encode i) = .ok i

/-- A word that decodes is the word of the command it decodes to, and that command is well formed: no
bit of a legal word is dropped. So the word a fault records is the word the host wrote. -/
def Obligations.EncodeOfDecodeIsTheWord : Prop :=
  ∀ (w : Word) (i : Instr), decode w = .ok i → encode i = w ∧ i.wf = true

/-- R66: at most one row of the opcode map matches a word; a word that matches a row decodes to that
row's command with that row's fields; a word that matches none is rejected. -/
def Obligations.DecodingFollowsTheOpcodeMap : Prop :=
  ∀ w : Word,
    (∀ r ∈ rows, ∀ q ∈ rows, r.matches w = true → q.matches w = true → r.mnemonic = q.mnemonic) ∧
    (∀ r ∈ rows, r.matches w = true → decode w = .ok (r.build w) ∧ (r.build w).mnemonic = r.mnemonic) ∧
    ((∀ r ∈ rows, r.matches w = false) → decode w = .error (.illegalCommand w))

/-- Words that the spec writes out (R77, 95_test_vectors.md section 2) decode to what it says. -/
def Obligations.SpecWordsDecode : Prop :=
  decode 0x10080000 = .ok (.mul .e0 .e2) ∧ decode 0x20600180 = .ok (.ld .e3 384) ∧
  decode 0x3185E578 = .ok (.mul2 .dacc .e0 47 .e1 47) ∧ decode 0x14FC0FFF = .ok (.sqnmul .e7 .e7 4095) ∧
  decode 0x06F40000 = .ok (.cmpeq .e7 .e5) ∧ decode 0x37208000 = .ok (.addnextract2 .e2 4 .e0 0) ∧
  decode 0x01040000 = .error (.illegalCommand 0x01040000) ∧
  decode 0x320FE3F9 = .error (.illegalCommand 0x320FE3F9)

/-! ### The command port and the host (10_state.md, 60_exceptions.md) -/

/-- A step whose event is a write to `CMD` of a word that decodes to `i` is `exec i`, on the state in
which that event is done. -/
def Obligations.StepExecutesTheIssuedCommand : Prop :=
  ∀ (s : State) (w : Word) (i : Instr) (rest : List HostAction),
    s.script = .csrWrite 6 w :: rest → s.fault = false → decode w = .ok i →
    step s = exec i { s with script := rest }

/-- R67, R176: a word that matches no row raises `Fault(ILLEGAL_COMMAND)`, whatever the registers hold:
`STATUS` reads 1, `CAUSE` 1 and `FCMD` the word, and nothing else changed. -/
def Obligations.IllegalWordRaisesIllegalCommand : Prop :=
  ∀ (s : State) (w : Word) (rest : List HostAction),
    s.script = .csrWrite 6 w :: rest → s.fault = false → (∀ r ∈ rows, r.matches w = false) →
    ∃ t, step s = .next t ∧ t.csr 1 = 1 ∧ t.csr 3 = 1 ∧ t.csr 4 = w ∧
      FaultTaken .illegalCommand w { s with script := rest } t

/-- R173: while the engine is faulted every word written to `CMD` is dropped, decoded or not, and changes
nothing; the host still reads every control register, and reads and writes operand memory; and no event
but a reset changes the fault record, a register, an accumulator or a flag. -/
def Obligations.FaultedEngineDropsCommands : Prop :=
  ∀ (s : State) (a : HostAction) (rest : List HostAction),
    s.script = a :: rest → s.fault = true →
    (∀ w, a = .csrWrite 6 w → step s = .next { s with script := rest }) ∧
    (∀ n, a = .csrRead n →
      step s = .next { s with script := rest, reply := some (.word (s.csr n)) }) ∧
    (∀ addr n, a = .omemRead addr n → addr + n ≤ s.cfg.omemBytes →
      ∃ bs : List Byte, bs.length = n ∧ (∀ k (h : k < bs.length), bs[k] = Memory.read s.omem (addr + k)) ∧
        step s = .next { s with script := rest, reply := some (.bytes bs) }) ∧
    (∀ addr bs, a = .omemWrite addr bs → addr + bs.length ≤ s.cfg.omemBytes →
      ∃ t, step s = .next t ∧ ∀ k (h : k < bs.length), Memory.read t.omem (addr + k) = bs[k]) ∧
    (∀ t, a.isReset = false → step s = .next t →
      t = { s with script := rest, omem := t.omem, reply := t.reply })

/-- With no event left the engine is idle and keeps all its state (R189, R190): the model's form of
"waits for the next `CMD` write" (assumption 6). -/
def Obligations.IdleEngineKeepsItsState : Prop :=
  ∀ s : State, s.script = [] → step s = .next s

/-- R28: a host read of a control register returns its current value, 0 for a number above 6, and changes
nothing else; a host write to a read-only one, or to a number above 6, is ignored. -/
def Obligations.ControlRegisterAccesses : Prop :=
  ∀ (s : State) (n : Nat) (w : Word) (rest : List HostAction),
    (s.script = .csrRead n :: rest →
      step s = .next { s with script := rest, reply := some (.word (s.csr n)) }) ∧
    (6 < n → s.csr n = 0) ∧
    (s.script = .csrWrite n w :: rest → n ≠ 6 → step s = .next { s with script := rest })

/-- The contents of the seven control registers (R26, R28, R30 to R36). -/
def Obligations.ControlRegisterContents : Prop :=
  ∀ s : State, s.Wf →
    s.csr 0 = (match s.cfg.width with | .w32 => 0x01086020#32 | .w64 => 0x01083040#32) ∧
    s.csr 1 = (if s.fault then 1#32 else 0#32) ∧
    ((s.csr 2).getLsbD 0 = s.flags.ov ∧ (s.csr 2).getLsbD 1 = s.flags.eq ∧
      (s.csr 2).getLsbD 2 = s.flags.aov ∧ ∀ b, 3 ≤ b → (s.csr 2).getLsbD b = false) ∧
    ((s.csr 3).toNat = s.cause.code ∧ (s.csr 3).toNat ≤ 4 ∧
      ((s.csr 3).toNat = 0 ↔ s.csr 1 = 0#32)) ∧
    s.csr 4 = s.fcmd ∧
    (s.csr 5).toNat = s.cfg.omemBytes ∧
    ∀ n, 6 ≤ n → s.csr n = 0

/-- R37, R42: between commands, faulted or not, the host writes any bytes of operand memory, each byte
written reads as written, and nothing else changes. -/
def Obligations.HostWriteStoresItsBytes : Prop :=
  ∀ (s : State) (addr : Nat) (bs : List Byte) (rest : List HostAction),
    s.script = .omemWrite addr bs :: rest → addr + bs.length ≤ s.cfg.omemBytes →
    ∃ t, step s = .next t ∧ (∀ k (h : k < bs.length), Memory.read t.omem (addr + k) = bs[k]) ∧
      (∀ a, (a < addr ∨ addr + bs.length ≤ a) → Memory.read t.omem a = Memory.read s.omem a) ∧
      t = { s with script := rest, omem := t.omem }

/-- R41, R52: a host read returns, byte by byte, what operand memory holds, and changes nothing else. -/
def Obligations.HostReadReturnsTheBytes : Prop :=
  ∀ (s : State) (addr n : Nat) (rest : List HostAction),
    s.script = .omemRead addr n :: rest → addr + n ≤ s.cfg.omemBytes →
    ∃ bs : List Byte, bs.length = n ∧ (∀ k (h : k < bs.length), bs[k] = Memory.read s.omem (addr + k)) ∧
      step s = .next { s with script := rest, reply := some (.bytes bs) }

/-- R39, R190, R191: a reset, from any state, leaves the accumulators, `FLAGS`, `STATUS`, `CAUSE` and
`FCMD` 0 and the instance's constants as they are; the element registers and operand memory hold
whatever the draw of that reset says. -/
def Obligations.PlatformResetState : Prop :=
  ∀ (s : State) (d : ResetDraw) (rest : List HostAction), s.script = .reset d :: rest →
    ∃ t, step s = .next t ∧ t.acc = ⟨0, 0, 0⟩ ∧ t.dacc = ⟨0, 0, 0⟩ ∧ t.csr 1 = 0 ∧ t.csr 2 = 0 ∧
      t.csr 3 = 0 ∧ t.csr 4 = 0 ∧ t.csr 0 = s.csr 0 ∧ t.csr 5 = s.csr 5 ∧ t.cfg = s.cfg ∧
      t.regs = d.regs ∧
      (∀ k (h : k < d.omem.length), k < s.cfg.omemBytes → Memory.read t.omem k = d.omem[k]) ∧
      t = { s with regs := t.regs, acc := t.acc, dacc := t.dacc, flags := t.flags, fault := t.fault,
                   cause := t.cause, fcmd := t.fcmd, omem := t.omem, script := rest }

/-- R39: what the spec states for reset, of the state the machine starts in: the accumulators, `FLAGS`,
`STATUS`, `CAUSE` and `FCMD` are 0, and the state is well formed. -/
def Obligations.ResetStateValues : Prop :=
  State.reset.acc = ⟨0, 0, 0⟩ ∧ State.reset.dacc = ⟨0, 0, 0⟩ ∧ State.reset.csr 1 = 0 ∧
  State.reset.csr 2 = 0 ∧ State.reset.csr 3 = 0 ∧ State.reset.csr 4 = 0 ∧ State.reset.Wf

/-! ### Element housekeeping (41_element_basic.md) -/

/-- R101: `IsOverflow(x)` is `x ≥ p`, and at both limb widths that is: limb 0 above
`LIMB_MAX − PRIME_DIFF` and every higher limb `LIMB_MAX`. From `p` to the top there are `PRIME_DIFF`
values. -/
def Obligations.IsOverflowInLimbs : Prop :=
  ∀ (w : LimbWidth) (x : Element),
    (isOverflow x = true ↔ 2 ^ 3072 - 1103717 ≤ x.toNat) ∧
    (isOverflow x = true ↔
      limbNat w x 0 > 2 ^ w.bits - 1 - 1103717 ∧
      ∀ i, 1 ≤ i → i < 3072 / w.bits → limbNat w x i = 2 ^ w.bits - 1) ∧
    2 ^ 3072 - modulus = 1103717

/-- R104: `NOP`, the all-zero word, retires and changes no state. -/
def Obligations.NopChangesNothing : Prop :=
  encode .nop = 0 ∧ ∀ s : State, exec .nop s = .next s

/-- R105: `SETONE Ed` sets limb 0 to 1 and every other limb to 0, and changes nothing else. -/
def Obligations.SetoneWritesOne : Prop :=
  ∀ (rd : Reg) (s : State),
    encode (.setone rd) = wordR 0x01 rd.bits 0 0 ∧
    ∃ t, exec (.setone rd) s = .next t ∧ (t.reg rd).toNat = 1 ∧ OnlyReg rd s t

/-- R106: `CPY Ed, Es` copies all 3072 bits with no reduction, and changes nothing else. -/
def Obligations.CpyCopiesAllBits : Prop :=
  ∀ (rd rs : Reg) (s : State),
    encode (.cpy rd rs) = wordR 0x02 rd.bits rs.bits 0 ∧
    ∃ t, exec (.cpy rd rs) s = .next t ∧ t.reg rd = s.reg rs ∧ OnlyReg rd s t

/-- R107: `ISOVF Es` writes `OV` with whether the register is `≥ p`; `EQ`, `AOV` and everything else
are unchanged. -/
def Obligations.IsovfWritesOv : Prop :=
  ∀ (rd : Reg) (s : State),
    encode (.isovf rd) = wordR 0x03 rd.bits 0 0 ∧
    ∃ t, exec (.isovf rd) s = .next t ∧ (t.flags.ov = true ↔ 2 ^ 3072 - 1103717 ≤ (s.reg rd).toNat) ∧
      t.flags.eq = s.flags.eq ∧ t.flags.aov = s.flags.aov ∧ OnlyFlags s t

/-- R102, R108: `FRED Ed` writes `FullReduce(E[rd]) = u_3072(E[rd] + PRIME_DIFF)`, and changes nothing
else: for a value `≥ p` that is the value less `p`, below `PRIME_DIFF`; for a value `< p` it is the sum,
with no carry out, and not congruent to the value modulo `p`. -/
def Obligations.FredAddsPrimeDiff : Prop :=
  ∀ (rd : Reg) (s : State),
    encode (.fred rd) = wordR 0x04 rd.bits 0 0 ∧
    ∃ t, exec (.fred rd) s = .next t ∧ (t.reg rd).toNat = ((s.reg rd).toNat + 1103717) % 2 ^ 3072 ∧
      (modulus ≤ (s.reg rd).toNat →
        (t.reg rd).toNat = (s.reg rd).toNat - modulus ∧ (t.reg rd).toNat < 1103717) ∧
      ((s.reg rd).toNat < modulus →
        (t.reg rd).toNat = (s.reg rd).toNat + 1103717 ∧
        (t.reg rd).toNat % modulus ≠ (s.reg rd).toNat % modulus) ∧
      OnlyReg rd s t

/-- R103, R109: `CANON Ed` writes `E[rd] mod p`, and changes nothing else. -/
def Obligations.CanonReducesModP : Prop :=
  ∀ (rd : Reg) (s : State),
    encode (.canon rd) = wordR 0x05 rd.bits 0 0 ∧
    ∃ t, exec (.canon rd) s = .next t ∧ (t.reg rd).toNat = (s.reg rd).toNat % modulus ∧ OnlyReg rd s t

/-- R110: `CMPEQ Ea, Eb` writes `EQ` with whether the two registers hold the same 3072 bits; `OV`, `AOV`
and everything else are unchanged. -/
def Obligations.CmpeqComparesStoredBits : Prop :=
  ∀ (rd rs : Reg) (s : State),
    encode (.cmpeq rd rs) = wordR 0x06 rd.bits rs.bits 0 ∧
    ∃ t, exec (.cmpeq rd rs) s = .next t ∧ (t.flags.eq = true ↔ s.reg rd = s.reg rs) ∧
      t.flags.ov = s.flags.ov ∧ t.flags.aov = s.flags.aov ∧ OnlyFlags s t

/-- R111: `CLRFLG` clears all three flags and nothing else: not `STATUS`, `CAUSE` or `FCMD`. -/
def Obligations.ClrflgClearsTheFlags : Prop :=
  ∀ s : State,
    encode .clrflg = 0x07000000 ∧
    ∃ t, exec .clrflg s = .next t ∧ t.flags = ⟨false, false, false⟩ ∧ OnlyFlags s t

/-! ### Multiplication and squaring (42_mul_square.md) -/

/-- R125: `MUL Ed, Es` writes `(E[rd]·E[rs]) mod p` for any operands, canonical or not, the same or not,
and changes nothing else; it never raises a fault. -/
def Obligations.MulWritesTheProductModP : Prop :=
  ∀ (rd rs : Reg) (s : State),
    encode (.mul rd rs) = wordR 0x10 rd.bits rs.bits 0 ∧
    ∃ t, exec (.mul rd rs) s = .next t ∧
      (t.reg rd).toNat = (s.reg rd).toNat * (s.reg rs).toNat % modulus ∧ OnlyReg rd s t

/-- R128: `SQR Ed` writes `E[rd]² mod p` and changes nothing else; it gives what `MUL Ed, Ed` gives. -/
def Obligations.SqrWritesTheSquareModP : Prop :=
  ∀ (rd : Reg) (s : State),
    encode (.sqr rd) = wordR 0x11 rd.bits 0 0 ∧
    (∃ t, exec (.sqr rd) s = .next t ∧
      (t.reg rd).toNat = (s.reg rd).toNat * (s.reg rd).toNat % modulus ∧ OnlyReg rd s t) ∧
    exec (.sqr rd) s = exec (.mul rd rd) s

/-- The limb algorithm of `Mul` (R122 to R124), at both limb widths and for all 3072-bit operands, yields
`(a·b) mod p` (R121); its assertions hold (R123, R129), and no accumulator operation loses a bit (R92).
That `mulFold`, by which this model defines the commands, yields the same is the model's own clause:
DEDUCED, log entry 7. -/
def Obligations.LimbMultiplierYieldsTheProductModP : Prop :=
  ∀ (w : LimbWidth) (a b : Element),
    mulLimbs w a b = { result := some (mulP a b), ovf := false } ∧
    (mulP a b).toNat = a.toNat * b.toNat % modulus ∧ mulFold a b = some (mulP a b)

/-- The limb algorithm of `Square` (R126), at both limb widths, yields `(a·a) mod p`, which is what `Mul`
yields with both operands `a` (R127); its assertions hold, and no accumulator operation loses a bit.
That `sqrFold`, by which this model defines the commands, yields the same is the model's own clause:
DEDUCED, log entry 7. -/
def Obligations.LimbSquarerYieldsTheSquareModP : Prop :=
  ∀ (w : LimbWidth) (a : Element),
    sqrLimbs w a = { result := some (mulP a a), ovf := false } ∧
    (mulP a a).toNat = a.toNat * a.toNat % modulus ∧ sqrFold a = some (mulP a a)

/-- Products may be accumulated in any order (R131, the source's commutativity property S3): two
multiplications of one register give the same state in either order. -/
def Obligations.MultiplicationsCommute : Prop :=
  ∀ (rd rx ry : Reg) (s t u : State), rx ≠ rd → ry ≠ rd →
    exec (.mul rd rx) s = .next t → exec (.mul rd ry) t = .next u →
    ∃ t', exec (.mul rd ry) s = .next t' ∧ exec (.mul rd rx) t' = .next u

/-! ### Inverse and division (43_inverse_divide.md) -/

/-- R141, R144: `SQNMUL Ed, Es, k` writes `(E[rd]^(2^k)·E[rs]) mod p`, both operands read at issue, and
changes nothing else. -/
def Obligations.SqnmulSquaresKTimesThenMultiplies : Prop :=
  ∀ (rd rs : Reg) (k : Nat) (s : State),
    encode (.sqnmul rd rs k) = wordR 0x14 rd.bits rs.bits (BitVec.ofNat 12 k) ∧
    ∃ t, exec (.sqnmul rd rs k) s = .next t ∧
      (t.reg rd).toNat = (s.reg rd).toNat ^ 2 ^ k * (s.reg rs).toNat % modulus ∧ OnlyReg rd s t

/-- R143: the chain of R142 raises every `x` to exactly `p − 2`, modulo `p`. -/
def Obligations.InverseChainRaisesToPMinusTwo : Prop :=
  ∀ x : Element, ∃ y : Element,
    getInverse x = some y ∧ y.toNat = x.toNat ^ (modulus - 2) % modulus

/-- R145, R143: `INV Ed, Es` of a source not congruent to 0 writes `E[rs]^(p−2) mod p`, canonical or not,
and changes nothing else. -/
def Obligations.InvWritesThePower : Prop :=
  ∀ (rd rs : Reg) (s : State), (s.reg rs).toNat % modulus ≠ 0 →
    ∃ t, exec (.inv rd rs) s = .next t ∧
      (t.reg rd).toNat = (s.reg rs).toNat ^ (modulus - 2) % modulus ∧ OnlyReg rd s t

/-- R146, R147: `DIV Ed, Es` by a divisor not congruent to 0 writes `E[rd]·E[rs]^(p−2) mod p`; the
divisor is not written (unless it is the destination), and nothing else changes. -/
def Obligations.DivWritesTheQuotient : Prop :=
  ∀ (rd rs : Reg) (s : State), (s.reg rs).toNat % modulus ≠ 0 →
    ∃ t, exec (.div rd rs) s = .next t ∧
      (t.reg rd).toNat = (s.reg rd).toNat * (s.reg rs).toNat ^ (modulus - 2) % modulus ∧
      OnlyReg rd s t

/-- Where the chain gives an inverse (`y^(p−1) ≡ 1`, which is Fermat's theorem for a prime `p`, taken
here as a premise on the operand), division by `y` undoes multiplication by `y` (R146, R147):
multiplying another register by `y` and then dividing it by `y` (the order of S2) leaves the register's
canonical form and changes nothing else; so do the two in the other order; and `y / y` is 1. -/
def Obligations.DivisionUndoesMultiplication : Prop :=
  ∀ (rd rs : Reg) (s : State), rd ≠ rs → (s.reg rs).toNat ^ (modulus - 1) % modulus = 1 →
    (∃ t u, exec (.mul rd rs) s = .next t ∧ exec (.div rd rs) t = .next u ∧
      (u.reg rd).toNat = (s.reg rd).toNat % modulus ∧ OnlyReg rd s u) ∧
    (∃ t u, exec (.div rd rs) s = .next t ∧ exec (.mul rd rs) t = .next u ∧
      (u.reg rd).toNat = (s.reg rd).toNat % modulus ∧ OnlyReg rd s u) ∧
    ∃ t, exec (.div rs rs) s = .next t ∧ (t.reg rs).toNat = 1 ∧ OnlyReg rs s t

/-- R148, U1: `INV` of, and `DIV` by, a value congruent to 0 raise no fault and set no flag; the
destination holds some canonical value (which, nothing says), and nothing else of the machine
changes. The counter of draws is the model's own (assumption 3). -/
def Obligations.ZeroDivisorLeavesAnyCanonicalValue : Prop :=
  ∀ (rd rs : Reg) (s : State), (s.reg rs).toNat % modulus = 0 →
    (∃ t, exec (.inv rd rs) s = .next t ∧ (t.reg rd).toNat < modulus ∧ OnlyRegAndDraw rd s t) ∧
    (∃ t, exec (.div rd rs) s = .next t ∧ (t.reg rd).toNat < modulus ∧ OnlyRegAndDraw rd s t)

/-! ### Load and store (20_memory.md, 44_load_store.md) -/

/-- R44: the image of a value has 384 bytes, byte `k` being bits `8k+7:8k`; the value of the image of `v`
is `v`, and the image of the value of any 384 bytes is those bytes. -/
def Obligations.ImageAndValueAreInverse : Prop :=
  (∀ v : Element, (imageOf v).length = 384 ∧ elementOf (imageOf v) = v ∧
    ∀ k (h : k < (imageOf v).length), ((imageOf v)[k]).toNat = v.toNat / 2 ^ (8 * k) % 2 ^ 8) ∧
  (∀ bs : List Byte, bs.length = 384 → imageOf (elementOf bs) = bs)

/-- R45: limb `i` of `v` is bytes `(W/8)·i .. (W/8)·i + W/8 − 1` of the image, least significant first,
and a 64-bit limb is the two 32-bit limbs at twice its index. -/
def Obligations.LimbsAreRunsOfImageBytes : Prop :=
  ∀ (w : LimbWidth) (v : Element) (i : Nat), i < 3072 / w.bits →
    leValue (((imageOf v).drop (w.bits / 8 * i)).take (w.bits / 8)) = limbNat w v i ∧
    limbNat .w32 v (2 * i) = limbNat .w64 v i % 2 ^ 32 ∧
    limbNat .w32 v (2 * i + 1) = limbNat .w64 v i / 2 ^ 32

/-- R161: `LD Ed, addr` inside operand memory, at any alignment, loads the 384 bytes at `addr`, lowest
address least significant, without any reduction, and changes nothing else; outside it, it raises
`Fault(OMEM_RANGE)`. -/
def Obligations.LdLoadsTheImage : Prop :=
  ∀ (rd : Reg) (addr : Nat) (s : State),
    encode (.ld rd addr) = wordM 0x20 rd.bits (BitVec.ofNat 16 addr) ∧
    (addr + 384 ≤ s.cfg.omemBytes →
      ∃ t, exec (.ld rd addr) s = .next t ∧
        (∀ k, k < 384 → (t.reg rd).extractLsb' (8 * k) 8 = Memory.read s.omem (addr + k)) ∧
        OnlyReg rd s t) ∧
    (s.cfg.omemBytes < addr + 384 →
      ∃ t, exec (.ld rd addr) s = .next t ∧ FaultTaken .omemRange (encode (.ld rd addr)) s t)

/-- R162, R180: `LDC Ed, addr` inside operand memory: with `v` the value of the 384 bytes at `addr`, an
image `≥ p` sets `OV` and loads nothing, any other clears `OV` and is loaded; both retire with no
fault, and nothing else changes. Outside operand memory it raises `Fault(OMEM_RANGE)`. -/
def Obligations.LdcLoadsOnlyCanonicalImages : Prop :=
  ∀ (rd : Reg) (addr : Nat) (s : State),
    encode (.ldc rd addr) = wordM 0x21 rd.bits (BitVec.ofNat 16 addr) ∧
    (addr + 384 ≤ s.cfg.omemBytes → ∀ v : Element,
      (∀ k, k < 384 → v.extractLsb' (8 * k) 8 = Memory.read s.omem (addr + k)) →
      ∃ t, exec (.ldc rd addr) s = .next t ∧
        (if modulus ≤ v.toNat then t.flags.ov = true ∧ t.reg rd = s.reg rd
          else t.flags.ov = false ∧ t.reg rd = v) ∧
        t.flags.eq = s.flags.eq ∧ t.flags.aov = s.flags.aov ∧
        (∀ r, r ≠ rd → t.reg r = s.reg r) ∧ SameBytes s t ∧
        t = { s with regs := t.regs, flags := t.flags }) ∧
    (s.cfg.omemBytes < addr + 384 →
      ∃ t, exec (.ldc rd addr) s = .next t ∧ FaultTaken .omemRange (encode (.ldc rd addr)) s t)

/-- R163: `ST Es, addr` inside operand memory stores the register as it is, byte `k` at `addr + k`; every
byte outside the 384 reads as before, and nothing else changes; outside it, it raises
`Fault(OMEM_RANGE)`. -/
def Obligations.StStoresTheImage : Prop :=
  ∀ (rd : Reg) (addr : Nat) (s : State),
    encode (.st rd addr) = wordM 0x22 rd.bits (BitVec.ofNat 16 addr) ∧
    (addr + 384 ≤ s.cfg.omemBytes →
      ∃ t, exec (.st rd addr) s = .next t ∧
        (∀ k, k < 384 → Memory.read t.omem (addr + k) = (s.reg rd).extractLsb' (8 * k) 8) ∧
        (∀ a, (a < addr ∨ addr + 384 ≤ a) → Memory.read t.omem a = Memory.read s.omem a) ∧
        t = { s with omem := t.omem }) ∧
    (s.cfg.omemBytes < addr + 384 →
      ∃ t, exec (.st rd addr) s = .next t ∧ FaultTaken .omemRange (encode (.st rd addr)) s t)

/-- R164: `ST` followed by `LD` of the same address into any register restores the stored value, and so
does `LDC` if it was canonical. -/
def Obligations.StoreThenLoadRestoresTheValue : Prop :=
  ∀ (rs rd : Reg) (addr : Nat) (s t : State), addr + 384 ≤ s.cfg.omemBytes →
    exec (.st rs addr) s = .next t →
    (∃ u, exec (.ld rd addr) t = .next u ∧ u.reg rd = s.reg rs) ∧
    ((s.reg rs).toNat < modulus →
      ∃ u, exec (.ldc rd addr) t = .next u ∧ u.reg rd = s.reg rs ∧ u.flags.ov = false)

/-- R47, R178: a memory command with `addr + 384 > OMEM_BYTES` raises `Fault(OMEM_RANGE)` before it reads
or writes anything: `STATUS` reads 1, `CAUSE` 3, `FCMD` the command; addresses do not wrap around. -/
def Obligations.ImageOutsideMemoryRaisesOmemRange : Prop :=
  ∀ (rd : Reg) (addr : Nat) (s : State) (i : Instr), s.cfg.omemBytes < addr + 384 →
    (i = .ld rd addr ∨ i = .ldc rd addr ∨ i = .st rd addr) →
    ∃ t, exec i s = .next t ∧ t.csr 1 = 1 ∧ t.csr 3 = 3 ∧ t.csr 4 = encode i ∧
      FaultTaken .omemRange (encode i) s t

/-! ### Limb operations (40_limbops.md) -/

/-- R84: `CLRACC t` clears the three limbs of `A[t]` and nothing else, `AOV` not either. -/
def Obligations.ClraccClearsTheAccumulator : Prop :=
  ∀ (k : AccSel) (s : State),
    encode (.clracc k) = wordL 0x30 k.bits 0 0 0 0 ∧
    ∃ t, exec (.clracc k) s = .next t ∧ t.accum k = ⟨0, 0, 0⟩ ∧ OnlyAccum k s t

/-- R85: `MUL2 t, Ea[i], Eb[j]` loads the exact product of the two limbs into the two low limbs of `A[t]`
and 0 into the carry limb, and changes nothing else: `MUL2` equals `CLRACC` followed by `MULADD3`. -/
def Obligations.Mul2LoadsTheProduct : Prop :=
  ∀ (k : AccSel) (ra : Reg) (ia : Nat) (rb : Reg) (ib : Nat) (s : State),
    ia < 3072 / s.cfg.width.bits → ib < 3072 / s.cfg.width.bits →
    encode (.mul2 k ra ia rb ib) =
      wordL 0x31 k.bits ra.bits (BitVec.ofNat 7 ia) rb.bits (BitVec.ofNat 7 ib) ∧
    ∃ t, exec (.mul2 k ra ia rb ib) s = .next t ∧
      (t.accum k).low.toNat + (t.accum k).high.toNat * 2 ^ s.cfg.width.bits =
        limbNat s.cfg.width (s.reg ra) ia * limbNat s.cfg.width (s.reg rb) ib ∧
      (t.accum k).carry = 0 ∧ (t.accum k).Fits s.cfg.width ∧ OnlyAccum k s t ∧
      ∃ u, exec (.clracc k) s = .next u ∧ exec (.muladd3 k ra ia rb ib) u = .next t

/-- R86, R83: `MULADD3 t, Ea[i], Eb[j]` adds the product of the two limbs to `A[t]`, cut to `3W` bits, and
sets the sticky `AOV` iff the exact sum does not fit; nothing else changes. -/
def Obligations.Muladd3AddsTheProduct : Prop :=
  ∀ (k : AccSel) (ra : Reg) (ia : Nat) (rb : Reg) (ib : Nat) (s : State) (v : Nat),
    ia < 3072 / s.cfg.width.bits → ib < 3072 / s.cfg.width.bits →
    v = (s.accum k).val3 s.cfg.width +
      limbNat s.cfg.width (s.reg ra) ia * limbNat s.cfg.width (s.reg rb) ib →
    encode (.muladd3 k ra ia rb ib) =
      wordL 0x32 k.bits ra.bits (BitVec.ofNat 7 ia) rb.bits (BitVec.ofNat 7 ib) ∧
    ∃ t, exec (.muladd3 k ra ia rb ib) s = .next t ∧
      (t.accum k).val3 s.cfg.width = v % 2 ^ (3 * s.cfg.width.bits) ∧
      (t.accum k).Fits s.cfg.width ∧
      (t.flags.aov = true ↔ s.flags.aov = true ∨ 2 ^ (3 * s.cfg.width.bits) ≤ v) ∧
      OnlyAccumAndAov k s t

/-- R87, R83: `MULDBLADD3 t, Ea[i], Eb[j]` adds twice the product of the two limbs to `A[t]`, cut to `3W`
bits, and sets the sticky `AOV` iff the exact sum does not fit; nothing else changes. -/
def Obligations.Muldbladd3AddsTwiceTheProduct : Prop :=
  ∀ (k : AccSel) (ra : Reg) (ia : Nat) (rb : Reg) (ib : Nat) (s : State) (v : Nat),
    ia < 3072 / s.cfg.width.bits → ib < 3072 / s.cfg.width.bits →
    v = (s.accum k).val3 s.cfg.width +
      2 * (limbNat s.cfg.width (s.reg ra) ia * limbNat s.cfg.width (s.reg rb) ib) →
    encode (.muldbladd3 k ra ia rb ib) =
      wordL 0x33 k.bits ra.bits (BitVec.ofNat 7 ia) rb.bits (BitVec.ofNat 7 ib) ∧
    ∃ t, exec (.muldbladd3 k ra ia rb ib) s = .next t ∧
      (t.accum k).val3 s.cfg.width = v % 2 ^ (3 * s.cfg.width.bits) ∧
      (t.accum k).Fits s.cfg.width ∧
      (t.flags.aov = true ↔ s.flags.aov = true ∨ 2 ^ (3 * s.cfg.width.bits) ≤ v) ∧
      OnlyAccumAndAov k s t

/-- R88, R83: `MULNADD3` adds `PRIME_DIFF·DACC` to `ACC`, cut to `3W` bits, whatever `c2` held, and sets
the sticky `AOV` iff the exact sum does not fit; `DACC` and everything else is unchanged. -/
def Obligations.Mulnadd3FoldsDaccIntoAcc : Prop :=
  ∀ (s : State) (v : Nat), v = s.acc.val3 s.cfg.width + 1103717 * s.dacc.val3 s.cfg.width →
    encode .mulnadd3 = 0x34000000 ∧
    ∃ t, exec .mulnadd3 s = .next t ∧
      t.acc.val3 s.cfg.width = v % 2 ^ (3 * s.cfg.width.bits) ∧ t.acc.Fits s.cfg.width ∧
      (t.flags.aov = true ↔ s.flags.aov = true ∨ 2 ^ (3 * s.cfg.width.bits) ≤ v) ∧
      OnlyAccumAndAov .acc s t

/-- R89, R83: `MULN2` multiplies the two low limbs of `ACC` by `PRIME_DIFF`, cut to `2W` bits, and sets the
sticky `AOV` iff the exact product does not fit; `c2` and everything else is unchanged. -/
def Obligations.Muln2ScalesTheTwoLowLimbs : Prop :=
  ∀ (s : State) (v : Nat),
    v = (s.acc.low.toNat + s.acc.high.toNat * 2 ^ s.cfg.width.bits) * 1103717 →
    encode .muln2 = 0x35000000 ∧
    ∃ t, exec .muln2 s = .next t ∧
      t.acc.low.toNat + t.acc.high.toNat * 2 ^ s.cfg.width.bits = v % 2 ^ (2 * s.cfg.width.bits) ∧
      t.acc.low.toNat < 2 ^ s.cfg.width.bits ∧ t.acc.carry = s.acc.carry ∧
      (t.flags.aov = true ↔ s.flags.aov = true ∨ 2 ^ (2 * s.cfg.width.bits) ≤ v) ∧
      OnlyAccumAndAov .acc s t

/-- R90: `EXTRACT3 t, Ed[i]` moves the lowest limb of `A[t]` to the named limb and shifts `A[t]` right by
one limb, the carry becoming 0; every other bit of the register, and everything else, is unchanged. -/
def Obligations.Extract3TakesTheLowestLimb : Prop :=
  ∀ (k : AccSel) (ra : Reg) (ia : Nat) (s : State), s.Wf → ia < 3072 / s.cfg.width.bits →
    encode (.extract3 k ra ia) = wordL 0x36 k.bits ra.bits (BitVec.ofNat 7 ia) 0 0 ∧
    ∃ t, exec (.extract3 k ra ia) s = .next t ∧
      limbNat s.cfg.width (t.reg ra) ia = (s.accum k).low.toNat ∧
      t.accum k = ⟨(s.accum k).high, (s.accum k).carry, 0⟩ ∧ OnlyAccumAndLimb k ra ia s t

/-- R91: `ADDNEXTRACT2 Ed[i], Ea[j]` adds the addend limb to the two low limbs of `ACC`, moves the lowest
limb of the sum to the named limb and shifts, the cascaded carry becoming the high limb; `c2`, every
other bit of the register, and everything else is unchanged. -/
def Obligations.Addnextract2AddsAndTakesTheLowestLimb : Prop :=
  ∀ (ra : Reg) (ia : Nat) (rb : Reg) (ib : Nat) (s : State) (v : Nat), s.Wf →
    ia < 3072 / s.cfg.width.bits → ib < 3072 / s.cfg.width.bits →
    v = s.acc.low.toNat + s.acc.high.toNat * 2 ^ s.cfg.width.bits +
      limbNat s.cfg.width (s.reg rb) ib →
    encode (.addnextract2 ra ia rb ib) =
      wordL 0x37 0 ra.bits (BitVec.ofNat 7 ia) rb.bits (BitVec.ofNat 7 ib) ∧
    ∃ t, exec (.addnextract2 ra ia rb ib) s = .next t ∧
      limbNat s.cfg.width (t.reg ra) ia = v % 2 ^ s.cfg.width.bits ∧
      t.acc.low.toNat = v / 2 ^ s.cfg.width.bits % 2 ^ s.cfg.width.bits ∧
      t.acc.high.toNat = v / 2 ^ (2 * s.cfg.width.bits) ∧ t.acc.high.toNat ≤ 1 ∧
      t.acc.carry = s.acc.carry ∧ OnlyAccumAndLimb .acc ra ia s t

/-- R70, R177: a limb index `≥ LIMBS` in a field that the command uses raises `Fault(LIMB_INDEX)`, once,
before any state changes: `STATUS` reads 1, `CAUSE` 2, `FCMD` the command. -/
def Obligations.LimbIndexOutOfRangeRaisesLimbIndex : Prop :=
  ∀ (k : AccSel) (ra : Reg) (ia : Nat) (rb : Reg) (ib : Nat) (s : State) (i : Instr),
    ((3072 / s.cfg.width.bits ≤ ia ∨ 3072 / s.cfg.width.bits ≤ ib) ∧
        (i = .mul2 k ra ia rb ib ∨ i = .muladd3 k ra ia rb ib ∨ i = .muldbladd3 k ra ia rb ib ∨
          i = .addnextract2 ra ia rb ib) ∨
      3072 / s.cfg.width.bits ≤ ia ∧ i = .extract3 k ra ia) →
    ∃ t, exec i s = .next t ∧ t.csr 1 = 1 ∧ t.csr 3 = 2 ∧ t.csr 4 = encode i ∧
      FaultTaken .limbIndex (encode i) s t

/-! ### The whole machine -/

/-- Every step keeps the state well formed: accumulators of `W`-bit limbs, operand memory canonical and
inside its size, the fault record empty exactly while not faulted, the instance legal. -/
def Obligations.StepKeepsTheStateWellFormed : Prop :=
  ∀ s t : State, s.Wf → step s = .next t → t.Wf

/-- R174, R175, R179: a fault of a command is precise. A command that a clean engine decodes and that
ends faulted raised `LIMB_INDEX` or `OMEM_RANGE`, changed nothing but the fault record, and the record
holds the very word that was issued; `INVARIANT` is unreachable (R129). -/
def Obligations.FaultsArePreciseAndNeverInvariant : Prop :=
  ∀ (w : Word) (i : Instr) (s t : State), decode w = .ok i → s.fault = false →
    exec i s = .next t → t.fault = true →
    (t.cause = .limbIndex ∧ elementLevel i = false ∨ t.cause = .omemRange ∧ reachesMemory i = true) ∧
    FaultTaken t.cause w s t

/-- R173, R183: along a run with no reset a fault is sticky: from a faulted state every later state of
the run is faulted with the same record, and no register, accumulator or flag has changed. -/
def Obligations.FaultIsStickyUntilReset : Prop :=
  ∀ (k : Nat) (s t : State), (∀ a ∈ s.script, a.isReset = false) → s.fault = true →
    Sys2Proof.core.run k s = .next t →
    t.fault = true ∧ t.cause = s.cause ∧ t.fcmd = s.fcmd ∧ t.regs = s.regs ∧ t.acc = s.acc ∧
      t.dacc = s.dacc ∧ t.flags = s.flags

/-- R173: a run with no reset that ends unfaulted was clean throughout: after any number of its steps it
was at an unfaulted state. -/
def Obligations.CleanRunsAreCleanThroughout : Prop :=
  ∀ (j k : Nat) (s t : State), (∀ a ∈ s.script, a.isReset = false) →
    Sys2Proof.core.run (j + k) s = .next t → t.fault = false →
    ∃ u, RunsClean j s u ∧ RunsClean k u t

/-- R9: the result of an element-level command does not depend on `W`. -/
def Obligations.ElementCommandsDoNotDependOnTheLimbWidth : Prop :=
  ∀ (i : Instr) (s t : State) (w : LimbWidth), elementLevel i = true →
    exec i s = .next t → exec i (s.withWidth w) = .next (t.withWidth w)

/-- R38: element-level commands neither read nor write `ACC` or `DACC`. -/
def Obligations.ElementCommandsDoNotTouchTheAccumulators : Prop :=
  ∀ (i : Instr) (s t : State) (a d : Acc), elementLevel i = true →
    exec i s = .next t →
    t.acc = s.acc ∧ t.dacc = s.dacc ∧
      exec i { s with acc := a, dacc := d } = .next { t with acc := a, dacc := d }

/-- R42: `LD`, `LDC` and `ST` alone reach operand memory: every other command leaves it alone and does
not depend on it; and of the three only `ST` writes it. -/
def Obligations.OnlyThreeCommandsReachMemory : Prop :=
  ∀ (i : Instr) (s t : State) (m : Memory), exec i s = .next t →
    (reachesMemory i = false →
      t.omem = s.omem ∧ exec i { s with omem := m } = .next { t with omem := m }) ∧
    ((∀ rd addr, i ≠ .st rd addr) → t.omem = s.omem)

/-- R26: `AOV` changes only by `MULADD3`, `MULDBLADD3`, `MULNADD3`, `MULN2` and `CLRFLG`, and is sticky:
`CLRFLG` alone clears it. `OV` changes only by `ISOVF`, `LDC` and `CLRFLG`, `EQ` only by `CMPEQ` and
`CLRFLG`, and no command reads a flag. -/
def Obligations.FlagsAreWrittenOnlyByTheirCommands : Prop :=
  ∀ (i : Instr) (s t : State), exec i s = .next t → i ≠ .clrflg →
    (mayLoseBits i = false → t.flags.aov = s.flags.aov) ∧
    (s.flags.aov = true → t.flags.aov = true) ∧
    ((∀ r, i ≠ .isovf r) → (∀ r addr, i ≠ .ldc r addr) → t.flags.ov = s.flags.ov) ∧
    ((∀ r q, i ≠ .cmpeq r q) → t.flags.eq = s.flags.eq) ∧
    ∀ f, ∃ g, exec i { s with flags := f } = .next { t with flags := g }

/-- R23, R149: `SETONE`, `CANON`, `MUL`, `SQR`, `SQNMUL`, `INV` and `DIV` always leave their destination
canonical, whatever their operands. -/
def Obligations.ArithmeticResultsAreCanonical : Prop :=
  ∀ (i : Instr) (rd : Reg) (s t : State), canonicalDest i = some rd →
    exec i s = .next t → (t.reg rd).toNat < modulus
end

