-- ==== Sys2Proof/Laws/Decode.lean ====
section
/-! SUPPORT. The opcode map as lemmas: a row that matches a word is the only one and is what the word
decodes to; the fields of a word of format R, M and L; the numbers of registers. -/

namespace Sys2Proof

/-! ### Registers and accumulators in their fields -/

@[simp] theorem Reg.ofBits_bits (r : Reg) : Reg.ofBits r.bits = r := by cases r <;> rfl

@[simp] theorem Reg.bits_ofBits (b : BitVec 3) : (Reg.ofBits b).bits = b := by revert b; decide

@[simp] theorem AccSel.ofBits_bits (t : AccSel) : AccSel.ofBits t.bits = t := by cases t <;> rfl

@[simp] theorem AccSel.bits_ofBits (b : BitVec 1) : (AccSel.ofBits b).bits = b := by revert b; decide

/-! ### Fields of the formats (R61 to R63) -/

@[simp] theorem fieldRd_wordR (op : BitVec 8) (rd rs : BitVec 3) (k : BitVec 12) :
    fieldRd (wordR op rd rs k) = Reg.ofBits rd := by
  unfold fieldRd wordR; congr 1; bv_normalize

@[simp] theorem fieldRs_wordR (op : BitVec 8) (rd rs : BitVec 3) (k : BitVec 12) :
    fieldRs (wordR op rd rs k) = Reg.ofBits rs := by
  unfold fieldRs wordR; congr 1; bv_normalize

@[simp] theorem fieldK_wordR (op : BitVec 8) (rd rs : BitVec 3) (k : BitVec 12) :
    fieldK (wordR op rd rs k) = k.toNat := by
  unfold fieldK wordR; congr 1; bv_normalize

@[simp] theorem fieldRd_wordM (op : BitVec 8) (rd : BitVec 3) (addr : BitVec 16) :
    fieldRd (wordM op rd addr) = Reg.ofBits rd := by
  unfold fieldRd wordM; congr 1; bv_normalize

@[simp] theorem fieldAddr_wordM (op : BitVec 8) (rd : BitVec 3) (addr : BitVec 16) :
    fieldAddr (wordM op rd addr) = addr.toNat := by
  unfold fieldAddr wordM; congr 1; bv_normalize

section FormatL

variable (op : BitVec 8) (t : BitVec 1) (ra rb : BitVec 3) (ia ib : BitVec 7)

@[simp] theorem fieldT_wordL : fieldT (wordL op t ra ia rb ib) = AccSel.ofBits t := by
  unfold fieldT wordL; congr 1; bv_normalize

@[simp] theorem fieldRa_wordL : fieldRa (wordL op t ra ia rb ib) = Reg.ofBits ra := by
  unfold fieldRa wordL; congr 1; bv_normalize

@[simp] theorem fieldIa_wordL : fieldIa (wordL op t ra ia rb ib) = ia.toNat := by
  unfold fieldIa wordL; congr 1; bv_normalize

@[simp] theorem fieldRb_wordL : fieldRb (wordL op t ra ia rb ib) = Reg.ofBits rb := by
  unfold fieldRb wordL; congr 1; bv_normalize

@[simp] theorem fieldIb_wordL : fieldIb (wordL op t ra ia rb ib) = ib.toNat := by
  unfold fieldIb wordL; congr 1; bv_normalize

end FormatL

/-! ### Rows of the opcode map (R65) -/

/-- The opcode of a word of each format. -/
@[simp] theorem op_wordR (op : BitVec 8) (rd rs : BitVec 3) (k : BitVec 12) :
    (wordR op rd rs k).extractLsb' 24 8 = op := by
  unfold wordR; bv_normalize

@[simp] theorem op_wordM (op : BitVec 8) (rd : BitVec 3) (addr : BitVec 16) :
    (wordM op rd addr).extractLsb' 24 8 = op := by
  unfold wordM; bv_normalize

@[simp] theorem op_wordL (op : BitVec 8) (t : BitVec 1) (ra rb : BitVec 3) (ia ib : BitVec 7) :
    (wordL op t ra ia rb ib).extractLsb' 24 8 = op := by
  unfold wordL; bv_normalize

/-- Every row's mask takes in the whole opcode, and the rows' opcodes are pairwise different. -/
theorem rows_ops :
    (∀ r ∈ rows, r.mask.extractLsb' 24 8 = 0xFF#8) ∧
      rows.Pairwise (fun r q => r.value.extractLsb' 24 8 ≠ q.value.extractLsb' 24 8) := by
  decide

/-- A word that matches a row has the row's opcode. -/
theorem Row.matches_op {r : Row} {w : Word} (hr : r ∈ rows) (h : r.matches w = true) :
    w.extractLsb' 24 8 = r.value.extractLsb' 24 8 := by
  have hm := rows_ops.1 r hr
  rw [Row.matches, beq_iff_eq] at h
  rw [← h, BitVec.extractLsb'_and, hm]
  bv_normalize

/-! ### A word under a row's mask, field by field -/

theorem and_opcodeMask (op : BitVec 8) : op &&& 0xFF#8 = op := by revert op; decide

theorem wordR_and (op : BitVec 8) (rd rs a b : BitVec 3) (k d : BitVec 12) (c : BitVec 6) :
    wordR op rd rs k &&& (0xFF#8 ++ a ++ b ++ c ++ d) = wordR op (rd &&& a) (rs &&& b) (k &&& d) := by
  unfold wordR
  rw [BitVec.and_append, BitVec.and_append, BitVec.and_append, BitVec.and_append, and_opcodeMask,
    BitVec.zero_and]

theorem wordM_and (op : BitVec 8) (rd a : BitVec 3) (addr d : BitVec 16) (c : BitVec 5) :
    wordM op rd addr &&& (0xFF#8 ++ a ++ c ++ d) = wordM op (rd &&& a) (addr &&& d) := by
  unfold wordM
  rw [BitVec.and_append, BitVec.and_append, BitVec.and_append, and_opcodeMask, BitVec.zero_and]

theorem wordL_and (op : BitVec 8) (t a : BitVec 1) (ra rb b d : BitVec 3) (ia ib c e : BitVec 7)
    (f : BitVec 3) :
    wordL op t ra ia rb ib &&& (0xFF#8 ++ a ++ b ++ c ++ d ++ e ++ f) =
      wordL op (t &&& a) (ra &&& b) (ia &&& c) (rb &&& d) (ib &&& e) := by
  unfold wordL
  rw [BitVec.and_append, BitVec.and_append, BitVec.and_append, BitVec.and_append, BitVec.and_append,
    BitVec.and_append, and_opcodeMask, BitVec.zero_and]

end Sys2Proof
end

