-- ==== Sys2Proof/Laws/State.lean ====
section
/-! SUPPORT. One lemma for each field under each state update, so that no later proof unfolds a record
update; the read-after-write laws of the element registers and of the two accumulators. -/

namespace Sys2Proof.Machine

/-! ### Element registers -/

@[simp] theorem Regs.get_set_self (g : Regs) (r : Reg) (v : Element) : (g.set r v).get r = v := by
  cases r <;> rfl

theorem Regs.get_set_ne (g : Regs) {r q : Reg} (v : Element) (h : q ≠ r) :
    (g.set r v).get q = g.get q := by
  cases r <;> cases q <;> first | rfl | exact absurd rfl h

theorem Regs.get_set (g : Regs) (r q : Reg) (v : Element) :
    (g.set r v).get q = if q = r then v else g.get q := by
  by_cases h : q = r
  · subst h; simp
  · simp [h, Regs.get_set_ne g v h]

@[simp] theorem Regs.set_set (g : Regs) (r : Reg) (v u : Element) :
    (g.set r v).set r u = g.set r u := by
  cases r <;> rfl

@[simp] theorem State.setReg_reg_self (s : State) (r : Reg) (v : Element) : (s.setReg r v).reg r = v :=
  Regs.get_set_self _ _ _

theorem State.setReg_reg_ne (s : State) {r q : Reg} (v : Element) (h : q ≠ r) :
    (s.setReg r v).reg q = s.reg q :=
  Regs.get_set_ne _ _ h

theorem State.setReg_reg (s : State) (r q : Reg) (v : Element) :
    (s.setReg r v).reg q = if q = r then v else s.reg q :=
  Regs.get_set _ _ _ _


/-! ### State.setReg -/

@[simp] theorem State.setReg_cfg (s : State) (r : Reg) (v : Element) :
    (s.setReg r v).cfg = s.cfg := rfl
@[simp] theorem State.setReg_regs (s : State) (r : Reg) (v : Element) :
    (s.setReg r v).regs = s.regs.set r v := rfl
@[simp] theorem State.setReg_acc (s : State) (r : Reg) (v : Element) :
    (s.setReg r v).acc = s.acc := rfl
@[simp] theorem State.setReg_dacc (s : State) (r : Reg) (v : Element) :
    (s.setReg r v).dacc = s.dacc := rfl
@[simp] theorem State.setReg_flags (s : State) (r : Reg) (v : Element) :
    (s.setReg r v).flags = s.flags := rfl
@[simp] theorem State.setReg_fault (s : State) (r : Reg) (v : Element) :
    (s.setReg r v).fault = s.fault := rfl
@[simp] theorem State.setReg_cause (s : State) (r : Reg) (v : Element) :
    (s.setReg r v).cause = s.cause := rfl
@[simp] theorem State.setReg_fcmd (s : State) (r : Reg) (v : Element) :
    (s.setReg r v).fcmd = s.fcmd := rfl
@[simp] theorem State.setReg_omem (s : State) (r : Reg) (v : Element) :
    (s.setReg r v).omem = s.omem := rfl
@[simp] theorem State.setReg_draws (s : State) (r : Reg) (v : Element) :
    (s.setReg r v).draws = s.draws := rfl
@[simp] theorem State.setReg_script (s : State) (r : Reg) (v : Element) :
    (s.setReg r v).script = s.script := rfl
@[simp] theorem State.setReg_reply (s : State) (r : Reg) (v : Element) :
    (s.setReg r v).reply = s.reply := rfl
@[simp] theorem State.setReg_accum (s : State) (r : Reg) (v : Element) (k : AccSel) :
    (s.setReg r v).accum k = s.accum k := by cases k <;> rfl

/-! ### State.setFlags -/

@[simp] theorem State.setFlags_cfg (s : State) (f : Flags) :
    (s.setFlags f).cfg = s.cfg := rfl
@[simp] theorem State.setFlags_regs (s : State) (f : Flags) :
    (s.setFlags f).regs = s.regs := rfl
@[simp] theorem State.setFlags_acc (s : State) (f : Flags) :
    (s.setFlags f).acc = s.acc := rfl
@[simp] theorem State.setFlags_dacc (s : State) (f : Flags) :
    (s.setFlags f).dacc = s.dacc := rfl
@[simp] theorem State.setFlags_flags (s : State) (f : Flags) :
    (s.setFlags f).flags = f := rfl
@[simp] theorem State.setFlags_fault (s : State) (f : Flags) :
    (s.setFlags f).fault = s.fault := rfl
@[simp] theorem State.setFlags_cause (s : State) (f : Flags) :
    (s.setFlags f).cause = s.cause := rfl
@[simp] theorem State.setFlags_fcmd (s : State) (f : Flags) :
    (s.setFlags f).fcmd = s.fcmd := rfl
@[simp] theorem State.setFlags_omem (s : State) (f : Flags) :
    (s.setFlags f).omem = s.omem := rfl
@[simp] theorem State.setFlags_draws (s : State) (f : Flags) :
    (s.setFlags f).draws = s.draws := rfl
@[simp] theorem State.setFlags_script (s : State) (f : Flags) :
    (s.setFlags f).script = s.script := rfl
@[simp] theorem State.setFlags_reply (s : State) (f : Flags) :
    (s.setFlags f).reply = s.reply := rfl
@[simp] theorem State.setFlags_reg (s : State) (f : Flags) (q : Reg) :
    (s.setFlags f).reg q = s.reg q := rfl
@[simp] theorem State.setFlags_accum (s : State) (f : Flags) (k : AccSel) :
    (s.setFlags f).accum k = s.accum k := by cases k <;> rfl

/-! ### State.raiseFault -/

@[simp] theorem State.raiseFault_cfg (s : State) (c : Cause) (w : Word) :
    (s.raiseFault c w).cfg = s.cfg := rfl
@[simp] theorem State.raiseFault_regs (s : State) (c : Cause) (w : Word) :
    (s.raiseFault c w).regs = s.regs := rfl
@[simp] theorem State.raiseFault_acc (s : State) (c : Cause) (w : Word) :
    (s.raiseFault c w).acc = s.acc := rfl
@[simp] theorem State.raiseFault_dacc (s : State) (c : Cause) (w : Word) :
    (s.raiseFault c w).dacc = s.dacc := rfl
@[simp] theorem State.raiseFault_flags (s : State) (c : Cause) (w : Word) :
    (s.raiseFault c w).flags = s.flags := rfl
@[simp] theorem State.raiseFault_fault (s : State) (c : Cause) (w : Word) :
    (s.raiseFault c w).fault = true := rfl
@[simp] theorem State.raiseFault_cause (s : State) (c : Cause) (w : Word) :
    (s.raiseFault c w).cause = c := rfl
@[simp] theorem State.raiseFault_fcmd (s : State) (c : Cause) (w : Word) :
    (s.raiseFault c w).fcmd = w := rfl
@[simp] theorem State.raiseFault_omem (s : State) (c : Cause) (w : Word) :
    (s.raiseFault c w).omem = s.omem := rfl
@[simp] theorem State.raiseFault_draws (s : State) (c : Cause) (w : Word) :
    (s.raiseFault c w).draws = s.draws := rfl
@[simp] theorem State.raiseFault_script (s : State) (c : Cause) (w : Word) :
    (s.raiseFault c w).script = s.script := rfl
@[simp] theorem State.raiseFault_reply (s : State) (c : Cause) (w : Word) :
    (s.raiseFault c w).reply = s.reply := rfl
@[simp] theorem State.raiseFault_reg (s : State) (c : Cause) (w : Word) (q : Reg) :
    (s.raiseFault c w).reg q = s.reg q := rfl
@[simp] theorem State.raiseFault_accum (s : State) (c : Cause) (w : Word) (k : AccSel) :
    (s.raiseFault c w).accum k = s.accum k := by cases k <;> rfl

/-! ### State.drawReg -/

@[simp] theorem State.drawReg_cfg (s : State) (r : Reg) :
    (s.drawReg r).cfg = s.cfg := rfl
@[simp] theorem State.drawReg_regs (s : State) (r : Reg) :
    (s.drawReg r).regs = s.regs.set r (Config.freeElement s.draws) := rfl
@[simp] theorem State.drawReg_acc (s : State) (r : Reg) :
    (s.drawReg r).acc = s.acc := rfl
@[simp] theorem State.drawReg_dacc (s : State) (r : Reg) :
    (s.drawReg r).dacc = s.dacc := rfl
@[simp] theorem State.drawReg_flags (s : State) (r : Reg) :
    (s.drawReg r).flags = s.flags := rfl
@[simp] theorem State.drawReg_fault (s : State) (r : Reg) :
    (s.drawReg r).fault = s.fault := rfl
@[simp] theorem State.drawReg_cause (s : State) (r : Reg) :
    (s.drawReg r).cause = s.cause := rfl
@[simp] theorem State.drawReg_fcmd (s : State) (r : Reg) :
    (s.drawReg r).fcmd = s.fcmd := rfl
@[simp] theorem State.drawReg_omem (s : State) (r : Reg) :
    (s.drawReg r).omem = s.omem := rfl
@[simp] theorem State.drawReg_draws (s : State) (r : Reg) :
    (s.drawReg r).draws = s.draws + 1 := rfl
@[simp] theorem State.drawReg_script (s : State) (r : Reg) :
    (s.drawReg r).script = s.script := rfl
@[simp] theorem State.drawReg_reply (s : State) (r : Reg) :
    (s.drawReg r).reply = s.reply := rfl
@[simp] theorem State.drawReg_accum (s : State) (r : Reg) (k : AccSel) :
    (s.drawReg r).accum k = s.accum k := by cases k <;> rfl

/-! ### State.drawCanonical -/

@[simp] theorem State.drawCanonical_cfg (s : State) (r : Reg) :
    (s.drawCanonical r).cfg = s.cfg := rfl
@[simp] theorem State.drawCanonical_regs (s : State) (r : Reg) :
    (s.drawCanonical r).regs = s.regs.set r (canonical (Config.freeElement s.draws)) := rfl
@[simp] theorem State.drawCanonical_acc (s : State) (r : Reg) :
    (s.drawCanonical r).acc = s.acc := rfl
@[simp] theorem State.drawCanonical_dacc (s : State) (r : Reg) :
    (s.drawCanonical r).dacc = s.dacc := rfl
@[simp] theorem State.drawCanonical_flags (s : State) (r : Reg) :
    (s.drawCanonical r).flags = s.flags := rfl
@[simp] theorem State.drawCanonical_fault (s : State) (r : Reg) :
    (s.drawCanonical r).fault = s.fault := rfl
@[simp] theorem State.drawCanonical_cause (s : State) (r : Reg) :
    (s.drawCanonical r).cause = s.cause := rfl
@[simp] theorem State.drawCanonical_fcmd (s : State) (r : Reg) :
    (s.drawCanonical r).fcmd = s.fcmd := rfl
@[simp] theorem State.drawCanonical_omem (s : State) (r : Reg) :
    (s.drawCanonical r).omem = s.omem := rfl
@[simp] theorem State.drawCanonical_draws (s : State) (r : Reg) :
    (s.drawCanonical r).draws = s.draws + 1 := rfl
@[simp] theorem State.drawCanonical_script (s : State) (r : Reg) :
    (s.drawCanonical r).script = s.script := rfl
@[simp] theorem State.drawCanonical_reply (s : State) (r : Reg) :
    (s.drawCanonical r).reply = s.reply := rfl
@[simp] theorem State.drawCanonical_accum (s : State) (r : Reg) (k : AccSel) :
    (s.drawCanonical r).accum k = s.accum k := by cases k <;> rfl

/-! ### State.storeImage -/

@[simp] theorem State.storeImage_cfg (s : State) (a : Nat) (v : Element) :
    (s.storeImage a v).cfg = s.cfg := rfl
@[simp] theorem State.storeImage_regs (s : State) (a : Nat) (v : Element) :
    (s.storeImage a v).regs = s.regs := rfl
@[simp] theorem State.storeImage_acc (s : State) (a : Nat) (v : Element) :
    (s.storeImage a v).acc = s.acc := rfl
@[simp] theorem State.storeImage_dacc (s : State) (a : Nat) (v : Element) :
    (s.storeImage a v).dacc = s.dacc := rfl
@[simp] theorem State.storeImage_flags (s : State) (a : Nat) (v : Element) :
    (s.storeImage a v).flags = s.flags := rfl
@[simp] theorem State.storeImage_fault (s : State) (a : Nat) (v : Element) :
    (s.storeImage a v).fault = s.fault := rfl
@[simp] theorem State.storeImage_cause (s : State) (a : Nat) (v : Element) :
    (s.storeImage a v).cause = s.cause := rfl
@[simp] theorem State.storeImage_fcmd (s : State) (a : Nat) (v : Element) :
    (s.storeImage a v).fcmd = s.fcmd := rfl
@[simp] theorem State.storeImage_omem (s : State) (a : Nat) (v : Element) :
    (s.storeImage a v).omem = Memory.writeBytes s.omem a (imageOf v) := rfl
@[simp] theorem State.storeImage_draws (s : State) (a : Nat) (v : Element) :
    (s.storeImage a v).draws = s.draws := rfl
@[simp] theorem State.storeImage_script (s : State) (a : Nat) (v : Element) :
    (s.storeImage a v).script = s.script := rfl
@[simp] theorem State.storeImage_reply (s : State) (a : Nat) (v : Element) :
    (s.storeImage a v).reply = s.reply := rfl
@[simp] theorem State.storeImage_reg (s : State) (a : Nat) (v : Element) (q : Reg) :
    (s.storeImage a v).reg q = s.reg q := rfl
@[simp] theorem State.storeImage_accum (s : State) (a : Nat) (v : Element) (k : AccSel) :
    (s.storeImage a v).accum k = s.accum k := by cases k <;> rfl

/-! ### State.withWidth -/

@[simp] theorem State.withWidth_cfg (s : State) (w : LimbWidth) :
    (s.withWidth w).cfg = { s.cfg with width := w } := rfl
@[simp] theorem State.withWidth_regs (s : State) (w : LimbWidth) :
    (s.withWidth w).regs = s.regs := rfl
@[simp] theorem State.withWidth_acc (s : State) (w : LimbWidth) :
    (s.withWidth w).acc = s.acc := rfl
@[simp] theorem State.withWidth_dacc (s : State) (w : LimbWidth) :
    (s.withWidth w).dacc = s.dacc := rfl
@[simp] theorem State.withWidth_flags (s : State) (w : LimbWidth) :
    (s.withWidth w).flags = s.flags := rfl
@[simp] theorem State.withWidth_fault (s : State) (w : LimbWidth) :
    (s.withWidth w).fault = s.fault := rfl
@[simp] theorem State.withWidth_cause (s : State) (w : LimbWidth) :
    (s.withWidth w).cause = s.cause := rfl
@[simp] theorem State.withWidth_fcmd (s : State) (w : LimbWidth) :
    (s.withWidth w).fcmd = s.fcmd := rfl
@[simp] theorem State.withWidth_omem (s : State) (w : LimbWidth) :
    (s.withWidth w).omem = s.omem := rfl
@[simp] theorem State.withWidth_draws (s : State) (w : LimbWidth) :
    (s.withWidth w).draws = s.draws := rfl
@[simp] theorem State.withWidth_script (s : State) (w : LimbWidth) :
    (s.withWidth w).script = s.script := rfl
@[simp] theorem State.withWidth_reply (s : State) (w : LimbWidth) :
    (s.withWidth w).reply = s.reply := rfl
@[simp] theorem State.withWidth_reg (s : State) (w : LimbWidth) (q : Reg) :
    (s.withWidth w).reg q = s.reg q := rfl
@[simp] theorem State.withWidth_accum (s : State) (w : LimbWidth) (k : AccSel) :
    (s.withWidth w).accum k = s.accum k := by cases k <;> rfl

/-! ### Accumulators -/

@[simp] theorem State.setAccum_cfg (s : State) (k : AccSel) (a : Acc) :
    (s.setAccum k a).cfg = s.cfg := by cases k <;> rfl
@[simp] theorem State.setAccum_regs (s : State) (k : AccSel) (a : Acc) :
    (s.setAccum k a).regs = s.regs := by cases k <;> rfl
@[simp] theorem State.setAccum_flags (s : State) (k : AccSel) (a : Acc) :
    (s.setAccum k a).flags = s.flags := by cases k <;> rfl
@[simp] theorem State.setAccum_fault (s : State) (k : AccSel) (a : Acc) :
    (s.setAccum k a).fault = s.fault := by cases k <;> rfl
@[simp] theorem State.setAccum_cause (s : State) (k : AccSel) (a : Acc) :
    (s.setAccum k a).cause = s.cause := by cases k <;> rfl
@[simp] theorem State.setAccum_fcmd (s : State) (k : AccSel) (a : Acc) :
    (s.setAccum k a).fcmd = s.fcmd := by cases k <;> rfl
@[simp] theorem State.setAccum_omem (s : State) (k : AccSel) (a : Acc) :
    (s.setAccum k a).omem = s.omem := by cases k <;> rfl
@[simp] theorem State.setAccum_draws (s : State) (k : AccSel) (a : Acc) :
    (s.setAccum k a).draws = s.draws := by cases k <;> rfl
@[simp] theorem State.setAccum_script (s : State) (k : AccSel) (a : Acc) :
    (s.setAccum k a).script = s.script := by cases k <;> rfl
@[simp] theorem State.setAccum_reply (s : State) (k : AccSel) (a : Acc) :
    (s.setAccum k a).reply = s.reply := by cases k <;> rfl
@[simp] theorem State.setAccum_reg (s : State) (k : AccSel) (a : Acc) (q : Reg) :
    (s.setAccum k a).reg q = s.reg q := by cases k <;> rfl
@[simp] theorem State.setAccum_accum_self (s : State) (k : AccSel) (a : Acc) :
    (s.setAccum k a).accum k = a := by cases k <;> rfl
theorem State.setAccum_accum_ne (s : State) {k j : AccSel} (a : Acc) (h : j ≠ k) :
    (s.setAccum k a).accum j = s.accum j := by
  cases k <;> cases j <;> first | rfl | exact absurd rfl h
@[simp] theorem State.setAccum_acc (s : State) (a : Acc) : (s.setAccum .acc a).acc = a := rfl
@[simp] theorem State.setAccum_dacc (s : State) (a : Acc) : (s.setAccum .dacc a).dacc = a := rfl

/-! ### Compound updates, as what they are made of -/

theorem State.raiseInvariant_eq (s : State) (rd : Reg) (w : Word) :
    s.raiseInvariant rd w = (s.drawReg rd).raiseFault .invariant w := rfl
theorem State.accumulate_eq (s : State) (k : AccSel) (r : AccResult) :
    s.accumulate k r = (s.setAccum k r.acc).setFlags (s.flags.stickAov r.ovf) := rfl
theorem State.extract_eq (s : State) (k : AccSel) (r : Reg) (i : Nat) (x : Extracted) :
    s.extract k r i x = (s.setAccum k x.acc).setReg r (setLimb s.cfg.width (s.reg r) i x.out) := by
  cases k <;> rfl
@[simp] theorem State.finishField_some (s : State) (rd : Reg) (w : Word) (v : Element) :
    s.finishField rd w (some v) = s.setReg rd v := rfl
@[simp] theorem State.finishField_none (s : State) (rd : Reg) (w : Word) :
    s.finishField rd w none = s.raiseInvariant rd w := rfl
@[simp] theorem Flags.withOv_eq (f : Flags) (v : Bool) : f.withOv v = { f with ov := v } := rfl
@[simp] theorem Flags.withEq_eq (f : Flags) (v : Bool) : f.withEq v = { f with eq := v } := rfl
@[simp] theorem Flags.stickAov_eq (f : Flags) (v : Bool) :
    f.stickAov v = { f with aov := f.aov || v } := rfl

/-! ### The frames of the updates -/

theorem State.setReg_only (s : State) (r : Reg) (v : Element) : OnlyReg r s (s.setReg r v) :=
  ⟨fun _ h => s.setReg_reg_ne v h, fun _ => rfl, rfl⟩

theorem State.drawCanonical_only (s : State) (r : Reg) : OnlyRegAndDraw r s (s.drawCanonical r) :=
  ⟨fun _ h => Regs.get_set_ne _ _ h, fun _ => rfl, rfl⟩

theorem State.setFlags_only (s : State) (f : Flags) : OnlyFlags s (s.setFlags f) :=
  ⟨fun _ => rfl, rfl⟩

theorem State.setAccum_only (s : State) (k : AccSel) (a : Acc) : OnlyAccum k s (s.setAccum k a) :=
  ⟨fun _ h => s.setAccum_accum_ne a h, fun _ => by simp, by cases k <;> rfl⟩

theorem State.accumulate_only (s : State) (k : AccSel) (r : AccResult) :
    OnlyAccumAndAov k s (s.accumulate k r) :=
  ⟨fun _ h => by simpa [State.accumulate_eq] using s.setAccum_accum_ne r.acc h, rfl, rfl,
    fun _ => by simp [State.accumulate_eq], by cases k <;> rfl⟩

theorem State.raiseFault_taken (s : State) (c : Cause) (w : Word) :
    FaultTaken c w s (s.raiseFault c w) :=
  ⟨rfl, rfl, rfl, fun _ => rfl, fun _ => rfl, rfl⟩

end Sys2Proof.Machine
end

