-- ==== Sys2Proof/Laws/Field.lean ====
section
/-! SUPPORT. The arithmetic of the modulus, and what one fold does. The size `2^3072` is kept behind
`size`, so that nothing computes with it by accident. -/

set_option exponentiation.threshold 4096

namespace Sys2Proof.Machine

/-- `2^3072`, as a constant that no tactic unfolds by itself. -/
def size : Nat := 2 ^ 3072

theorem size_eq : size = 2 ^ 3072 := rfl

theorem element_lt (x : Element) : x.toNat < size := by unfold size; exact x.isLt

/-- `p + PRIME_DIFF = 2^3072` (R4, R6). -/
theorem modulus_add_primeDiff : modulus + primeDiff = size := by
  have h : primeDiff ≤ size := by
    unfold size
    exact le_trans (by decide : primeDiff ≤ 2 ^ 21) (Nat.pow_le_pow_right (by decide) (by decide))
  rw [modulus, ← size_eq]
  exact Nat.sub_add_cancel h

/-- `PRIME_DIFF < 2^21` (R4). -/
theorem primeDiff_lt : primeDiff < 2 ^ 21 := by decide

theorem primeDiff_pos : 0 < primeDiff := by decide

theorem two_pow_le_size {n : Nat} (h : n ≤ 3072) : 2 ^ n ≤ size := by
  unfold size; exact Nat.pow_le_pow_right (by decide) h

/-- `2^3072` is far larger than any power of `PRIME_DIFF` that a bound needs. -/
theorem size_large : 2 ^ 200 ≤ size := two_pow_le_size (by decide)

theorem modulus_pos : 0 < modulus := by
  have h1 := modulus_add_primeDiff
  have h2 := primeDiff_lt
  have h3 := size_large
  omega

theorem modulus_lt_size : modulus < size := by
  have h1 := modulus_add_primeDiff
  have h2 := primeDiff_pos
  omega

/-- `2^3072 < 2p`: a 3072-bit value exceeds `p` at most once (R103). -/
theorem size_lt_two_modulus : size < 2 * modulus := by
  have h1 := modulus_add_primeDiff
  have h2 := primeDiff_lt
  have h3 := size_large
  omega

theorem isOverflow_iff (x : Element) : isOverflow x = true ↔ modulus ≤ x.toNat := by
  simp [isOverflow]

theorem fullReduce_toNat (x : Element) : (fullReduce x).toNat = (primeDiff + x.toNat) % size := by
  rw [fullReduce, BitVec.toNat_ofNat, size_eq]

theorem fold_eq (v : Nat) : fold v = v % size + primeDiff * (v / size) := by
  rw [fold, size_eq]

/-- A fold takes a multiple of `p` away: `v` is `fold v` plus `p` times the part above bit 3071. -/
theorem fold_add (v : Nat) : fold v + modulus * (v / size) = v := by
  have h : v % size + size * (v / size) = v := Nat.mod_add_div v size
  rw [← modulus_add_primeDiff, Nat.add_mul] at h
  rw [modulus_add_primeDiff] at h
  rw [fold_eq]
  omega

/-- A fold keeps the residue modulo `p` (R6). -/
theorem fold_mod (v : Nat) : fold v % modulus = v % modulus := by
  have h := congrArg (· % modulus) (fold_add v)
  simpa only [Nat.add_mul_mod_self_left] using h

/-- The size of a fold. -/
theorem fold_lt (v : Nat) : fold v < size + primeDiff * (v / size) := by
  have := Nat.mod_lt v (lt_of_lt_of_le (Nat.two_pow_pos 200) size_large)
  rw [fold_eq]
  omega

/-! ### What each function of a value does, once -/

/-- What `Canon` does (R103): the residue modulo `p`. -/
theorem canonical_toNat (x : Element) : (canonical x).toNat = x.toNat % modulus := by
  have hx := element_lt x
  have h2 := size_lt_two_modulus
  have h3 := modulus_add_primeDiff
  unfold canonical
  by_cases h : modulus ≤ x.toNat
  · rw [if_pos ((isOverflow_iff x).2 h), fullReduce_toNat]
    have : x.toNat % modulus = x.toNat - modulus := by
      rw [Nat.mod_eq_sub_mod h, Nat.mod_eq_of_lt (by omega)]
    rw [this, show primeDiff + x.toNat = (x.toNat - modulus) + size by omega, Nat.add_mod_right,
      Nat.mod_eq_of_lt (by omega)]
  · rw [if_neg (by rw [isOverflow_iff]; exact h), Nat.mod_eq_of_lt (by omega)]

/-- The product modulo `p`, as a number. -/
theorem mulP_toNat (a b : Element) : (mulP a b).toNat = a.toNat * b.toNat % modulus := by
  rw [mulP, BitVec.toNat_ofNat, ← size_eq, Nat.mod_eq_of_lt]
  exact lt_trans (Nat.mod_lt _ modulus_pos) modulus_lt_size

/-- A 3072-bit cut, as a number. -/
theorem ofNat_toNat_size (v : Nat) : (BitVec.ofNat 3072 v).toNat = v % size := by
  rw [BitVec.toNat_ofNat, size_eq]

/-- What steps 4 and 5 of `Mul` do (R123, R124) to a value that exceeds `2^3072` by little: the assertion
holds, and the result is the residue modulo `p`. -/
theorem finishMul_eq {v : Nat} (h : v < size + 2 ^ 150) :
    ∃ y, finishMul v = some y ∧ y.toNat = v % modulus := by
  have h1 := modulus_add_primeDiff
  have h2 := primeDiff_lt
  have h3 := size_large
  have hs : 0 < size := by omega
  unfold finishMul
  rw [← size_eq]
  by_cases hc : v < size
  · have e : v / size = 0 := Nat.div_eq_of_lt hc
    rw [e, if_pos (by decide), if_neg (by decide)]
    refine ⟨_, rfl, ?_⟩
    rw [canonical_toNat, ofNat_toNat_size, Nat.mod_eq_of_lt hc]
  · have e : v / size = 1 := by
      have h4 : 2 ^ 150 ≤ size := two_pow_le_size (by decide)
      have u : v / size < 2 := Nat.div_lt_of_lt_mul (by
        rw [Nat.mul_comm, Nat.two_mul]; exact lt_of_lt_of_le h (Nat.add_le_add_left h4 _))
      have l := (Nat.le_div_iff_mul_le hs).2 (show 1 * size ≤ v by omega)
      omega
    rw [e, if_pos (le_refl _), if_pos rfl]
    refine ⟨_, rfl, ?_⟩
    rw [canonical_toNat, fullReduce_toNat, ofNat_toNat_size]
    have e2 : v % size = v - size := by
      rw [Nat.mod_eq_sub_mod (by omega), Nat.mod_eq_of_lt (by omega)]
    have e3 : v % modulus = v - modulus := by
      rw [Nat.mod_eq_sub_mod (by omega), Nat.mod_eq_of_lt (by omega)]
    rw [e2, e3, show primeDiff + (v - size) = v - modulus by omega,
      Nat.mod_eq_of_lt (show v - modulus < size by omega),
      Nat.mod_eq_of_lt (show v - modulus < modulus by omega)]

/-- What `Mul` on values does (R121): no assertion fails, and the result is the product modulo `p`. -/
theorem mulFold_eq (a b : Element) : mulFold a b = some (mulP a b) := by
  have ha := element_lt a
  have hb := element_lt b
  have h1 := modulus_add_primeDiff
  have h2 := primeDiff_lt
  have h3 := size_large
  have hs : 0 < size := by omega
  have hab : a.toNat * b.toNat < size * size := Nat.mul_lt_mul'' ha hb
  have hhi : a.toNat * b.toNat / size < size := Nat.div_lt_of_lt_mul hab
  have ht := fold_lt (a.toNat * b.toNat)
  have ht2 : fold (a.toNat * b.toNat) < size * (primeDiff + 1) := by
    have : primeDiff * (a.toNat * b.toNat / size) ≤ primeDiff * size := Nat.mul_le_mul_left _ hhi.le
    rw [Nat.mul_add, Nat.mul_comm size]; omega
  have hq : fold (a.toNat * b.toNat) / size < primeDiff + 1 := Nat.div_lt_of_lt_mul ht2
  have ht3 := fold_lt (fold (a.toNat * b.toNat))
  have ht4 : fold (fold (a.toNat * b.toNat)) < size + 2 ^ 150 := by
    have : primeDiff * (fold (a.toNat * b.toNat) / size) ≤ 2 ^ 21 * 2 ^ 21 :=
      Nat.mul_le_mul h2.le (by omega)
    omega
  obtain ⟨y, hy, hv⟩ := finishMul_eq ht4
  rw [mulFold, hy]
  congr 1
  apply BitVec.eq_of_toNat_eq
  rw [hv, fold_mod, fold_mod, mulP_toNat]

/-- What `Square` on values does (R127). -/
theorem sqrFold_eq (a : Element) : sqrFold a = some (mulP a a) := mulFold_eq a a

end Sys2Proof.Machine
end

