-- ==== Sys2Proof/Laws/LimbOps.lean ====
section
/-! SUPPORT. What the limb operations and the limb operand forms do, in numbers: one lemma for each, to
be cited instead of unfolding it. -/

set_option exponentiation.threshold 4096

namespace Sys2Proof.Machine

/-! ### The two limb widths -/

theorem bits_le (w : LimbWidth) : w.bits ≤ 64 := by cases w <;> decide

theorem bits_mul_limbs (w : LimbWidth) : w.bits * w.limbs = 3072 := by cases w <;> rfl

theorem limbs_eq (w : LimbWidth) : w.limbs = 3072 / w.bits := by cases w <;> rfl

theorem base_le (w : LimbWidth) : 2 ^ w.bits ≤ 2 ^ 64 := Nat.pow_le_pow_right (by decide) (bits_le w)

theorem base_pos (w : LimbWidth) : 0 < 2 ^ w.bits := Nat.two_pow_pos _

theorem base2_eq (w : LimbWidth) : 2 ^ (2 * w.bits) = 2 ^ w.bits * 2 ^ w.bits := by
  rw [two_mul, pow_add]

theorem base3_eq (w : LimbWidth) : 2 ^ (3 * w.bits) = 2 ^ w.bits * (2 ^ w.bits * 2 ^ w.bits) := by
  rw [show 3 * w.bits = w.bits + (w.bits + w.bits) by omega, pow_add, pow_add]

/-! ### Limbs -/

@[simp] theorem limbOf_toNat (w : LimbWidth) (v : Nat) : (limbOf w v).toNat = v % 2 ^ w.bits := by
  have h := Nat.mod_lt v (base_pos w)
  rw [limbOf, BitVec.toNat_ofNat, Nat.mod_eq_of_lt (lt_of_lt_of_le h (base_le w))]

theorem limbOf_lt (w : LimbWidth) (v : Nat) : (limbOf w v).toNat < 2 ^ w.bits := by
  rw [limbOf_toNat]; exact Nat.mod_lt _ (base_pos w)

@[simp] theorem limb_toNat (w : LimbWidth) (v : Element) (i : Nat) :
    (limb w v i).toNat = limbNat w v i := limbOf_toNat _ _

theorem limbNat_lt (w : LimbWidth) (v : Element) (i : Nat) : limbNat w v i < 2 ^ w.bits :=
  Nat.mod_lt _ (base_pos w)

@[simp] theorem State.word_toNat (s : State) (r : Reg) (i : Nat) :
    (s.word r i).toNat = limbNat s.cfg.width (s.reg r) i := limb_toNat _ _ _

/-! ### Replacing one limb -/

/-- The value of `setLimb`, with no cut at 3072 bits where the index names a limb. -/
theorem setLimb_toNat (w : LimbWidth) (v : Element) {i : Nat} (x : Limb) (hi : i < w.limbs) :
    (setLimb w v i x).toNat =
      v.toNat % 2 ^ (w.bits * i) + 2 ^ (w.bits * i) * (x.toNat % 2 ^ w.bits) +
        2 ^ (w.bits * (i + 1)) * (v.toNat / 2 ^ (w.bits * (i + 1))) := by
  have hB : 2 ^ (w.bits * (i + 1)) = 2 ^ (w.bits * i) * 2 ^ w.bits := by rw [Nat.mul_add, mul_one, pow_add]
  have htop : 2 ^ (w.bits * (i + 1)) * 2 ^ (3072 - w.bits * (i + 1)) = 2 ^ 3072 := by
    rw [← Nat.pow_add]; congr 1
    have h : w.bits * (i + 1) ≤ w.bits * w.limbs := Nat.mul_le_mul_left w.bits hi
    rw [bits_mul_limbs] at h
    omega
  have hq : v.toNat / 2 ^ (w.bits * (i + 1)) < 2 ^ (3072 - w.bits * (i + 1)) := by
    rw [Nat.div_lt_iff_lt_mul (Nat.two_pow_pos _), mul_comm]; exact lt_of_lt_of_eq v.isLt htop.symm
  have hlo := Nat.mod_lt v.toNat (Nat.two_pow_pos (w.bits * i))
  have hx := Nat.mod_lt x.toNat (base_pos w)
  have hlow : v.toNat % 2 ^ (w.bits * i) + 2 ^ (w.bits * i) * (x.toNat % 2 ^ w.bits) <
      2 ^ (w.bits * (i + 1)) := by
    rw [hB]
    calc _ < 2 ^ (w.bits * i) + 2 ^ (w.bits * i) * (x.toNat % 2 ^ w.bits) := by omega
      _ = 2 ^ (w.bits * i) * (x.toNat % 2 ^ w.bits + 1) := by ring
      _ ≤ 2 ^ (w.bits * i) * 2 ^ w.bits := Nat.mul_le_mul_left _ hx
  rw [setLimb, BitVec.toNat_ofNat, limbOf_toNat, Nat.mod_eq_of_lt]
  calc _ < 2 ^ (w.bits * (i + 1)) + 2 ^ (w.bits * (i + 1)) * (v.toNat / 2 ^ (w.bits * (i + 1))) := by
        omega
    _ = 2 ^ (w.bits * (i + 1)) * (v.toNat / 2 ^ (w.bits * (i + 1)) + 1) := by ring
    _ ≤ 2 ^ (w.bits * (i + 1)) * 2 ^ (3072 - w.bits * (i + 1)) := Nat.mul_le_mul_left _ hq
    _ = 2 ^ 3072 := htop

/-- The limb written reads as written. -/
theorem limbNat_setLimb_self (w : LimbWidth) (v : Element) {i : Nat} (x : Limb) (hi : i < w.limbs) :
    limbNat w (setLimb w v i x) i = x.toNat % 2 ^ w.bits := by
  have hB : 2 ^ (w.bits * (i + 1)) = 2 ^ (w.bits * i) * 2 ^ w.bits := by rw [Nat.mul_add, mul_one, pow_add]
  have hpos := Nat.two_pow_pos (w.bits * i)
  have hlo := Nat.mod_lt v.toNat hpos
  rw [limbNat, setLimb_toNat w v x hi, hB,
    show v.toNat % 2 ^ (w.bits * i) + 2 ^ (w.bits * i) * (x.toNat % 2 ^ w.bits) +
        2 ^ (w.bits * i) * 2 ^ w.bits * (v.toNat / (2 ^ (w.bits * i) * 2 ^ w.bits)) =
      v.toNat % 2 ^ (w.bits * i) + 2 ^ (w.bits * i) * (x.toNat % 2 ^ w.bits +
        2 ^ w.bits * (v.toNat / (2 ^ (w.bits * i) * 2 ^ w.bits))) by ring,
    Nat.add_mul_div_left _ _ hpos, Nat.div_eq_of_lt hlo, zero_add, Nat.add_mul_mod_self_left,
    Nat.mod_mod]

/-- Every bit outside the limb written is as before. -/
theorem setLimb_getLsbD_outside (w : LimbWidth) (v : Element) {i : Nat} (x : Limb) (hi : i < w.limbs)
    {b : Nat} (hb : b < w.bits * i ∨ w.bits * i + w.bits ≤ b) :
    (setLimb w v i x).getLsbD b = v.getLsbD b := by
  have hB : 2 ^ (w.bits * (i + 1)) = 2 ^ (w.bits * i) * 2 ^ w.bits := by rw [Nat.mul_add, mul_one, pow_add]
  have hpos := Nat.two_pow_pos (w.bits * i)
  have hlo := Nat.mod_lt v.toNat hpos
  have hx := Nat.mod_lt x.toNat (base_pos w)
  rw [BitVec.getLsbD, BitVec.getLsbD, setLimb_toNat w v x hi]
  rcases hb with hb | hb
  · have hlow : (v.toNat % 2 ^ (w.bits * i) + 2 ^ (w.bits * i) * (x.toNat % 2 ^ w.bits) +
        2 ^ (w.bits * (i + 1)) * (v.toNat / 2 ^ (w.bits * (i + 1)))) % 2 ^ (w.bits * i) =
        v.toNat % 2 ^ (w.bits * i) := by
      rw [hB, show v.toNat % 2 ^ (w.bits * i) + 2 ^ (w.bits * i) * (x.toNat % 2 ^ w.bits) +
          2 ^ (w.bits * i) * 2 ^ w.bits * (v.toNat / (2 ^ (w.bits * i) * 2 ^ w.bits)) =
        v.toNat % 2 ^ (w.bits * i) + 2 ^ (w.bits * i) * (x.toNat % 2 ^ w.bits +
          2 ^ w.bits * (v.toNat / (2 ^ (w.bits * i) * 2 ^ w.bits))) by ring,
        Nat.add_mul_mod_self_left, Nat.mod_mod]
    have h := congrArg (fun n => n.testBit b) hlow
    simpa only [Nat.testBit_mod_two_pow, hb, decide_true, Bool.true_and] using h
  · have hhigh : (v.toNat % 2 ^ (w.bits * i) + 2 ^ (w.bits * i) * (x.toNat % 2 ^ w.bits) +
        2 ^ (w.bits * (i + 1)) * (v.toNat / 2 ^ (w.bits * (i + 1)))) / 2 ^ (w.bits * (i + 1)) =
        v.toNat / 2 ^ (w.bits * (i + 1)) := by
      rw [Nat.add_mul_div_left _ _ (Nat.two_pow_pos _), Nat.div_eq_of_lt, zero_add]
      rw [hB]
      calc _ < 2 ^ (w.bits * i) + 2 ^ (w.bits * i) * (x.toNat % 2 ^ w.bits) := by omega
        _ = 2 ^ (w.bits * i) * (x.toNat % 2 ^ w.bits + 1) := by ring
        _ ≤ 2 ^ (w.bits * i) * 2 ^ w.bits := Nat.mul_le_mul_left _ hx
    have h := congrArg (fun n => n.testBit (b - w.bits * (i + 1))) hhigh
    have hs : b - w.bits * (i + 1) + w.bits * (i + 1) = b := by rw [Nat.mul_add, mul_one]; omega
    simpa only [Nat.testBit_div_two_pow, hs] using h

/-- Writing limb `i` of a value that has nothing from limb `i` on. -/
theorem setLimb_toNat_of_lt (w : LimbWidth) (v : Element) {i : Nat} (x : Limb) (hi : i < w.limbs)
    (hv : v.toNat < 2 ^ (w.bits * i)) :
    (setLimb w v i x).toNat = v.toNat + 2 ^ (w.bits * i) * (x.toNat % 2 ^ w.bits) := by
  have hle : 2 ^ (w.bits * i) ≤ 2 ^ (w.bits * (i + 1)) :=
    Nat.pow_le_pow_right (by decide) (Nat.mul_le_mul_left _ (Nat.le_succ i))
  rw [setLimb_toNat w v x hi, Nat.mod_eq_of_lt hv, Nat.div_eq_of_lt (lt_of_lt_of_le hv hle), mul_zero,
    add_zero]

/-! ### Accumulators -/

theorem Acc.ofVal3_fits (w : LimbWidth) (v : Nat) : (Acc.ofVal3 w v).Fits w :=
  ⟨limbOf_lt w _, limbOf_lt w _, limbOf_lt w _⟩

theorem Acc.zero_fits (w : LimbWidth) : Acc.zero.Fits w :=
  ⟨base_pos w, base_pos w, base_pos w⟩

/-- `u_(3W)(v)` in three limbs has the value `v mod 2^(3W)`. -/
@[simp] theorem Acc.val3_ofVal3 (w : LimbWidth) (v : Nat) :
    (Acc.ofVal3 w v).val3 w = v % 2 ^ (3 * w.bits) := by
  rw [Acc.ofVal3, Acc.val3, limbOf_toNat, limbOf_toNat, limbOf_toNat, base3_eq, Nat.mod_mul,
    Nat.mod_mul, base2_eq, Nat.div_div_eq_div_mul]
  ring

/-- An accumulator of `W`-bit limbs is the one its value makes. -/
theorem Acc.ofVal3_val3 {w : LimbWidth} {a : Acc} (h : a.Fits w) : Acc.ofVal3 w (a.val3 w) = a := by
  have hp := base_pos w
  have e1 : a.val3 w = a.low.toNat + 2 ^ w.bits * (a.high.toNat + 2 ^ w.bits * a.carry.toNat) := by
    rw [Acc.val3, base2_eq]; ring
  have e2 : a.val3 w / 2 ^ w.bits = a.high.toNat + 2 ^ w.bits * a.carry.toNat := by
    rw [e1, Nat.add_mul_div_left _ _ hp, Nat.div_eq_of_lt h.low, zero_add]
  have e3 : a.val3 w / 2 ^ (2 * w.bits) = a.carry.toNat := by
    rw [base2_eq, ← Nat.div_div_eq_div_mul, e2, Nat.add_mul_div_left _ _ hp, Nat.div_eq_of_lt h.high,
      zero_add]
  have l : limbOf w (a.val3 w) = a.low := BitVec.eq_of_toNat_eq (by
    rw [limbOf_toNat, e1, Nat.add_mul_mod_self_left, Nat.mod_eq_of_lt h.low])
  have m : limbOf w (a.val3 w / 2 ^ w.bits) = a.high := BitVec.eq_of_toNat_eq (by
    rw [limbOf_toNat, e2, Nat.add_mul_mod_self_left, Nat.mod_eq_of_lt h.high])
  have c : limbOf w (a.val3 w / 2 ^ (2 * w.bits)) = a.carry := BitVec.eq_of_toNat_eq (by
    rw [limbOf_toNat, e3, Nat.mod_eq_of_lt h.carry])
  rw [Acc.ofVal3, l, m, c]

/-- The value of an accumulator of `W`-bit limbs fits in `3W` bits. -/
theorem Acc.val3_lt {w : LimbWidth} {a : Acc} (h : a.Fits w) : a.val3 w < 2 ^ (3 * w.bits) := by
  have e := Acc.val3_ofVal3 w (a.val3 w)
  rw [Acc.ofVal3_val3 h] at e
  rw [e]
  exact Nat.mod_lt _ (Nat.two_pow_pos _)

/-- What a three-limb write does (R83): the value cut to `3W` bits, and whether it was cut. -/
theorem put3_spec (w : LimbWidth) (v : Nat) :
    (put3 w v).acc.val3 w = v % 2 ^ (3 * w.bits) ∧ (put3 w v).acc.Fits w ∧
      ((put3 w v).ovf = true ↔ 2 ^ (3 * w.bits) ≤ v) :=
  ⟨Acc.val3_ofVal3 w v, Acc.ofVal3_fits w v, by simp [put3]⟩

/-- A three-limb write of a value that fits is exact. -/
theorem put3_exact (w : LimbWidth) {v : Nat} (h : v < 2 ^ (3 * w.bits)) :
    (put3 w v).acc.val3 w = v ∧ (put3 w v).acc.Fits w ∧ (put3 w v).ovf = false :=
  ⟨by rw [(put3_spec w v).1, Nat.mod_eq_of_lt h], Acc.ofVal3_fits w v, by simp [put3, h]⟩

/-- What `mul` does (R85): the product of two limbs, exact, in the two low limbs. -/
theorem mul2_spec (w : LimbWidth) {a b : Limb} (ha : a.toNat < 2 ^ w.bits) (hb : b.toNat < 2 ^ w.bits) :
    (mul2 w a b).val2 w = a.toNat * b.toNat ∧
      (mul2 w a b).carry = 0 ∧ (mul2 w a b).Fits w := by
  refine ⟨?_, rfl, limbOf_lt w _, limbOf_lt w _, base_pos w⟩
  have hlt : a.toNat * b.toNat < 2 ^ w.bits * 2 ^ w.bits := Nat.mul_lt_mul'' ha hb
  simp only [mul2, Acc.val2, limbOf_toNat]
  rw [Nat.mod_eq_of_lt (Nat.div_lt_of_lt_mul hlt)]
  exact Nat.mod_add_div _ _

/-- What `muln2` does (R89): the two low limbs times `n`, cut to `2W` bits, and whether it was cut; the
carry limb is left alone. -/
theorem muln2_spec (w : LimbWidth) (a : Acc) (n : Nat) :
    (muln2 w a n).acc.val2 w = n * a.val2 w % 2 ^ (2 * w.bits) ∧
      (muln2 w a n).acc.low.toNat < 2 ^ w.bits ∧ (muln2 w a n).acc.high.toNat < 2 ^ w.bits ∧
      (muln2 w a n).acc.carry = a.carry ∧
      ((muln2 w a n).ovf = true ↔ 2 ^ (2 * w.bits) ≤ n * a.val2 w) := by
  refine ⟨?_, limbOf_lt w _, limbOf_lt w _, rfl, by simp [muln2]⟩
  rw [base2_eq, Nat.mod_mul]
  simp only [muln2, Acc.val2, limbOf_toNat]

/-- What `extract3` does (R90). -/
theorem extract3_spec (a : Acc) :
    (extract3 a).out = a.low ∧ (extract3 a).acc = { low := a.high, high := a.carry, carry := 0 } :=
  ⟨rfl, rfl⟩

/-- `extract3` splits off the lowest limb: the value is the limb plus the new value shifted. -/
theorem extract3_value (w : LimbWidth) (a : Acc) :
    a.val3 w = (extract3 a).out.toNat + 2 ^ w.bits * (extract3 a).acc.val3 w := by
  rw [(extract3_spec a).1, (extract3_spec a).2, Acc.val3, Acc.val3, base2_eq]
  simp
  ring

theorem extract3_fits {w : LimbWidth} {a : Acc} (h : a.Fits w) : (extract3 a).acc.Fits w :=
  ⟨h.high, h.carry, base_pos w⟩

/-- What `addnextract2` does (R91), for two low limbs of `W` bits and an addend of `W` bits: the limb
taken and the shifted pair, the cascaded carry in the high limb. -/
theorem addnextract2_spec (w : LimbWidth) {a : Acc} {x : Limb} (hl : a.low.toNat < 2 ^ w.bits)
    (hh : a.high.toNat < 2 ^ w.bits) (hx : x.toNat < 2 ^ w.bits) :
    (addnextract2 w a x).out.toNat = (a.val2 w + x.toNat) % 2 ^ w.bits ∧
      (addnextract2 w a x).acc.low.toNat = (a.val2 w + x.toNat) / 2 ^ w.bits % 2 ^ w.bits ∧
      (addnextract2 w a x).acc.high.toNat = (a.val2 w + x.toNat) / 2 ^ (2 * w.bits) ∧
      (addnextract2 w a x).acc.high.toNat ≤ 1 ∧ (addnextract2 w a x).acc.carry = a.carry := by
  have hp := base_pos w
  have hsum : a.val2 w + x.toNat < 2 * (2 ^ w.bits * 2 ^ w.bits) := by
    have h1 : 2 ^ w.bits * a.high.toNat ≤ 2 ^ w.bits * (2 ^ w.bits - 1) :=
      Nat.mul_le_mul_left _ (by omega)
    have h2 : 2 ^ w.bits * (2 ^ w.bits - 1) + 2 ^ w.bits = 2 ^ w.bits * 2 ^ w.bits := by
      rw [Nat.mul_sub, mul_one]
      exact Nat.sub_add_cancel (Nat.le_mul_of_pos_left _ hp)
    have h3 : 2 ^ w.bits ≤ 2 ^ w.bits * 2 ^ w.bits := Nat.le_mul_of_pos_left _ hp
    rw [Acc.val2]; omega
  have hq : (a.val2 w + x.toNat) / 2 ^ (2 * w.bits) ≤ 1 := by
    rw [base2_eq]
    exact Nat.lt_succ_iff.mp (Nat.div_lt_of_lt_mul (by rw [mul_comm]; exact hsum))
  have h2 : 1 < 2 ^ w.bits := Nat.one_lt_two_pow (by cases w <;> decide)
  refine ⟨by simp only [addnextract2, limbOf_toNat], by simp only [addnextract2, limbOf_toNat], ?_, ?_,
    by simp only [addnextract2]⟩
  · simp only [addnextract2, limbOf_toNat]
    exact Nat.mod_eq_of_lt (by omega)
  · simp only [addnextract2, limbOf_toNat]
    exact le_trans (Nat.mod_le _ _) hq

/-! ### What the shared state updates of the limb-level commands do -/

/-- A sum `v` accumulated into `A[k]` (R83): the sum cut to `3W` bits, the sticky `AOV`, nothing else. -/
theorem State.accumulate_put3 (s : State) (k : AccSel) (v : Nat) :
    ((s.accumulate k (put3 s.cfg.width v)).accum k).val3 s.cfg.width = v % 2 ^ (3 * s.cfg.width.bits) ∧
      ((s.accumulate k (put3 s.cfg.width v)).accum k).Fits s.cfg.width ∧
      ((s.accumulate k (put3 s.cfg.width v)).flags.aov = true ↔
        s.flags.aov = true ∨ 2 ^ (3 * s.cfg.width.bits) ≤ v) ∧
      OnlyAccumAndAov k s (s.accumulate k (put3 s.cfg.width v)) := by
  obtain ⟨h1, h2, h3⟩ := put3_spec s.cfg.width v
  exact ⟨by simp [State.accumulate_eq, h1], by simpa [State.accumulate_eq] using h2,
    by simp [State.accumulate_eq, h3], s.accumulate_only _ _⟩

/-- An extraction changes `A[k]` and limb `i` of the register, and nothing else. -/
theorem State.extract_only (s : State) (k : AccSel) (r : Reg) {i : Nat} (x : Extracted)
    (hi : i < s.cfg.width.limbs) : OnlyAccumAndLimb k r i s (s.extract k r i x) := by
  rw [State.extract_eq]
  refine ⟨fun j hj => by rw [State.setReg_accum, State.setAccum_accum_ne _ _ hj],
    fun q hq => by rw [State.setReg_reg_ne _ _ hq, State.setAccum_reg], fun b hb => ?_,
    fun a => by simp, by cases k <;> rfl⟩
  rw [State.setReg_reg_self]
  exact setLimb_getLsbD_outside _ _ _ hi hb

end Sys2Proof.Machine
end

