-- ==== Sys2Proof/Laws/Memory.lean ====
section
/-! SUPPORT. The laws of operand memory: a byte read after a write, the bytes of a run, and that every
memory operation keeps the canonical form. The read laws hold of every list, canonical or not. -/

set_option exponentiation.threshold 4096

namespace Sys2Proof.Machine

/-! ### Reading -/

@[simp] theorem Memory.read_nil (a : Nat) : Memory.read [] a = blankByte := rfl

theorem Memory.read_cons (c : Host.Cell) (m : Memory) (a : Nat) :
    Memory.read (c :: m) a = if c.1 = a then c.2 else Memory.read m a := rfl

/-- Keeping entries by a test that holds at the address read changes nothing there. -/
theorem Memory.read_filter_of_true {p : Nat → Prop} [DecidablePred p] (m : Memory) {a : Nat} (ha : p a) :
    Memory.read (m.filter fun c => decide (p c.1)) a = Memory.read m a := by
  induction m with
  | nil => rfl
  | cons c m ih =>
    by_cases hc : c.1 = a
    · simp [Memory.read_cons, hc, ha]
    · by_cases hp : p c.1 <;> simp [Memory.read_cons, hp, hc, ih]

/-- Where no entry has the address, it reads as an unlisted one. -/
theorem Memory.read_of_not_mem {m : Memory} {a : Nat} (h : ∀ c ∈ m, c.1 ≠ a) :
    Memory.read m a = blankByte := by
  induction m with
  | nil => rfl
  | cons c m ih =>
    rw [Memory.read_cons, if_neg (h c (by simp)), ih fun d hd => h d (by simp [hd])]

theorem Memory.read_append_of_not_mem {m n : Memory} {a : Nat} (h : ∀ c ∈ m, c.1 ≠ a) :
    Memory.read (m ++ n) a = Memory.read n a := by
  induction m with
  | nil => rfl
  | cons c m ih =>
    rw [List.cons_append, Memory.read_cons, if_neg (h c (by simp)), ih fun d hd => h d (by simp [hd])]

theorem Memory.read_append_of_not_mem_right {m n : Memory} {a : Nat} (h : ∀ c ∈ n, c.1 ≠ a) :
    Memory.read (m ++ n) a = Memory.read m a := by
  induction m with
  | nil => simpa using Memory.read_of_not_mem h
  | cons c m ih => rw [List.cons_append, Memory.read_cons, Memory.read_cons, ih]

theorem Memory.read_advance (m : Memory) {addr a : Nat} (h : addr < a) :
    Memory.read (Memory.advance m addr) a = Memory.read m a := by
  cases m with
  | nil => rfl
  | cons c m =>
    by_cases hc : c.1 ≤ addr
    · simp [Memory.advance, Memory.read_cons, hc, show c.1 ≠ a by omega]
    · simp [Memory.advance, hc]

theorem Memory.readRun_eq (m : Memory) (addr n : Nat) :
    Memory.readRun m addr n = (List.range n).map fun k => Memory.read m (addr + k) := by
  induction n generalizing m addr with
  | zero => rfl
  | succ n ih =>
    rw [Memory.readRun, ih, List.range_succ_eq_map, List.map_cons, List.map_map, Nat.add_zero]
    congr 1
    refine List.map_congr_left fun k _ => ?_
    rw [Memory.read_advance m (by omega), Function.comp, Nat.succ_eq_add_one, Nat.add_assoc,
      Nat.add_comm 1 k]

/-- `MemRead(addr, n)` is the bytes at `addr .. addr+n−1`, lowest address first (R41). -/
theorem Memory.readBytes_eq (m : Memory) (addr n : Nat) :
    Memory.readBytes m addr n = (List.range n).map fun k => Memory.read m (addr + k) := by
  rw [Memory.readBytes, Memory.readRun_eq]
  refine List.map_congr_left fun k hk => ?_
  exact Memory.read_filter_of_true (p := fun a => addr ≤ a ∧ a < addr + n) m
    (by have := List.mem_range.mp hk; omega)

@[simp] theorem Memory.readBytes_length (m : Memory) (addr n : Nat) :
    (Memory.readBytes m addr n).length = n := by
  simp [Memory.readBytes_eq]

theorem Memory.readBytes_getElem (m : Memory) (addr n k : Nat)
    (h : k < (Memory.readBytes m addr n).length) :
    (Memory.readBytes m addr n)[k] = Memory.read m (addr + k) := by
  simp [Memory.readBytes_eq]

/-! ### Writing -/

theorem Memory.mem_block {addr : Nat} {bs : List Byte} {c : Host.Cell} (h : c ∈ Memory.block addr bs) :
    addr ≤ c.1 ∧ c.1 < addr + bs.length ∧ c.2 ≠ blankByte := by
  induction bs generalizing addr with
  | nil => simp [Memory.block] at h
  | cons b bs ih =>
    have hrest : c ∈ Memory.block (addr + 1) bs →
        addr ≤ c.1 ∧ c.1 < addr + (b :: bs).length ∧ c.2 ≠ blankByte := fun hc => by
      have := ih hc
      simp only [List.length_cons]
      exact ⟨by omega, by omega, this.2.2⟩
    unfold Memory.block at h
    split at h
    · exact hrest h
    · rcases List.mem_cons.mp h with rfl | hc
      · rename_i hb
        exact ⟨le_refl _, by simp, hb⟩
      · exact hrest hc

theorem Memory.read_block {addr : Nat} {bs : List Byte} (k : Nat) (h : k < bs.length) :
    Memory.read (Memory.block addr bs) (addr + k) = bs[k] := by
  induction bs generalizing addr k with
  | nil => simp at h
  | cons b bs ih =>
    have hlow : Memory.read (Memory.block (addr + 1) bs) addr = blankByte :=
      Memory.read_of_not_mem fun c hc => by have := Memory.mem_block hc; omega
    cases k with
    | zero =>
      unfold Memory.block
      split
      · rename_i hb; simpa [hb] using hlow
      · simp [Memory.read_cons]
    | succ k =>
      have hk : k < bs.length := by simpa using h
      have := ih (addr := addr + 1) k hk
      unfold Memory.block
      split
      · simpa [Nat.add_assoc, Nat.add_comm 1 k] using this
      · simpa [Memory.read_cons, Nat.add_assoc, Nat.add_comm 1 k] using this

/-- A byte written reads as written. -/
theorem Memory.read_writeBytes_inside (m : Memory) (addr : Nat) (bs : List Byte) (k : Nat)
    (h : k < bs.length) : Memory.read (Memory.writeBytes m addr bs) (addr + k) = bs[k] := by
  rw [Memory.writeBytes, Memory.read_append_of_not_mem_right, Memory.read_append_of_not_mem,
    Memory.read_block k h]
  · intro c hc
    have := (List.mem_filter.mp hc).2
    simp at this; omega
  · intro c hc
    have := (List.mem_filter.mp hc).2
    simp at this; omega

/-- Every byte outside the bytes written reads as before. -/
theorem Memory.read_writeBytes_outside (m : Memory) (addr : Nat) (bs : List Byte) {a : Nat}
    (h : a < addr ∨ addr + bs.length ≤ a) :
    Memory.read (Memory.writeBytes m addr bs) a = Memory.read m a := by
  have hblock : ∀ c ∈ Memory.block addr bs, c.1 ≠ a := fun c hc => by
    have := Memory.mem_block hc; omega
  rw [Memory.writeBytes]
  rcases h with h | h
  · rw [Memory.read_append_of_not_mem_right, Memory.read_append_of_not_mem_right hblock]
    · exact Memory.read_filter_of_true (p := fun x => x < addr) m h
    · intro c hc
      have := (List.mem_filter.mp hc).2
      simp at this; omega
  · rw [Memory.read_append_of_not_mem]
    · exact Memory.read_filter_of_true (p := fun x => addr + bs.length ≤ x) m h
    · intro c hc
      rcases List.mem_append.mp hc with hc | hc
      · have := (List.mem_filter.mp hc).2
        simp at this; omega
      · exact hblock c hc

/-! ### The canonical form -/

theorem Memory.block_wf (addr : Nat) (bs : List Byte) : Memory.Wf (Memory.block addr bs) := by
  refine ⟨?_, fun c hc => (Memory.mem_block hc).2.2⟩
  induction bs generalizing addr with
  | nil => simp [Memory.block]
  | cons b bs ih =>
    unfold Memory.block
    split
    · exact ih (addr + 1)
    · refine List.pairwise_cons.mpr ⟨fun c hc => ?_, ih (addr + 1)⟩
      have := Memory.mem_block hc
      show addr < c.1
      omega

/-- A write keeps the canonical form. -/
theorem Memory.writeBytes_wf {m : Memory} (h : Memory.Wf m) (addr : Nat) (bs : List Byte) :
    Memory.Wf (Memory.writeBytes m addr bs) := by
  have hb := Memory.block_wf addr bs
  refine ⟨?_, fun c hc => ?_⟩
  · rw [Memory.writeBytes, List.pairwise_append, List.pairwise_append]
    refine ⟨⟨h.1.filter _, hb.1, fun c hc d hd => ?_⟩, h.1.filter _, fun c hc d hd => ?_⟩
    · have h1 := (List.mem_filter.mp hc).2
      have h2 := Memory.mem_block hd
      simp at h1; omega
    · have h2 := (List.mem_filter.mp hd).2
      rcases List.mem_append.mp hc with hc | hc
      · have h1 := (List.mem_filter.mp hc).2
        simp at h1 h2; omega
      · have h1 := Memory.mem_block hc
        simp at h2; omega
  · rw [Memory.writeBytes, List.mem_append, List.mem_append] at hc
    rcases hc with (hc | hc) | hc
    · exact h.2 c (List.mem_filter.mp hc).1
    · exact hb.2 c hc
    · exact h.2 c (List.mem_filter.mp hc).1

/-- The entries after a write are entries of before, or are among the bytes written. -/
theorem Memory.mem_writeBytes {m : Memory} {addr : Nat} {bs : List Byte} {c : Host.Cell}
    (h : c ∈ Memory.writeBytes m addr bs) : c ∈ m ∨ addr ≤ c.1 ∧ c.1 < addr + bs.length := by
  rw [Memory.writeBytes, List.mem_append, List.mem_append] at h
  rcases h with (h | h) | h
  · exact .inl (List.mem_filter.mp h).1
  · exact .inr ⟨(Memory.mem_block h).1, (Memory.mem_block h).2.1⟩
  · exact .inl (List.mem_filter.mp h).1

/-- A window on a canonical memory is canonical. -/
theorem Memory.window_wf {m : Memory} (h : Memory.Wf m) (addr n : Nat) :
    Memory.Wf (Memory.window m addr n) :=
  ⟨h.1.filter _, fun c hc => h.2 c (List.mem_filter.mp hc).1⟩

/-- What is left of a canonical memory after its first entry is canonical. -/
theorem Memory.advance_wf {m : Memory} (h : Memory.Wf m) (addr : Nat) :
    Memory.Wf (Memory.advance m addr) := by
  cases m with
  | nil => exact h
  | cons c m =>
    by_cases hc : c.1 ≤ addr
    · simp only [Memory.advance, hc, if_true]
      exact ⟨(List.pairwise_cons.mp h.1).2, fun d hd => h.2 d (List.mem_cons_of_mem c hd)⟩
    · simpa only [Memory.advance, hc, if_false] using h

/-- Memory with nothing listed is canonical: `State.reset` has it. -/
theorem Memory.nil_wf : Memory.Wf [] := ⟨List.Pairwise.nil, by simp⟩

/-! ### The element image -/

theorem leValue_lt (bs : List Byte) : leValue bs < 2 ^ (8 * bs.length) := by
  induction bs with
  | nil => simp [leValue]
  | cons b bs ih =>
    have hb := b.isLt
    rw [leValue, List.length_cons, Nat.mul_add, Nat.pow_add]
    calc _ < 2 ^ 8 + 2 ^ 8 * leValue bs := by omega
      _ = 2 ^ 8 * (leValue bs + 1) := by ring
      _ ≤ 2 ^ 8 * 2 ^ (8 * bs.length) := Nat.mul_le_mul_left _ ih
      _ = _ := mul_comm _ _

@[simp] theorem imageOf_length (v : Element) : (imageOf v).length = 384 := by
  simp [imageOf, imageBytes]

theorem imageOf_getElem (v : Element) (k : Nat) (h : k < (imageOf v).length) :
    (imageOf v)[k] = v.extractLsb' (8 * k) 8 := by
  simp [imageOf]

/-- Byte `k` of an element, as a number. -/
theorem element_byte_toNat (v : Element) (k : Nat) :
    (v.extractLsb' (8 * k) 8).toNat = v.toNat / 2 ^ (8 * k) % 2 ^ 8 := by
  rw [BitVec.extractLsb'_toNat, Nat.shiftRight_eq_div_pow]

/-- Byte `k` of the value of a list of bytes is the list's entry `k`, or 0 past its end. -/
theorem leValue_byte (bs : List Byte) (k : Nat) :
    leValue bs / 2 ^ (8 * k) % 2 ^ 8 = ((bs[k]?).getD 0).toNat := by
  induction bs generalizing k with
  | nil => simp [leValue]
  | cons b bs ih =>
    have hb := b.isLt
    cases k with
    | zero => rw [leValue]; simpa using hb
    | succ k =>
      rw [leValue, show 8 * (k + 1) = 8 + 8 * k by omega, Nat.pow_add, ← Nat.div_div_eq_div_mul,
        Nat.add_mul_div_left _ _ (by decide), Nat.div_eq_of_lt hb, Nat.zero_add, ih]
      simp

/-- The value of the bytes from the `n`th on. -/
theorem leValue_drop (bs : List Byte) (n : Nat) :
    leValue (bs.drop n) = leValue bs / 2 ^ (8 * n) := by
  induction n generalizing bs with
  | zero => simp
  | succ n ih =>
    cases bs with
    | nil => simp [leValue]
    | cons b bs =>
      rw [List.drop_succ_cons, ih, leValue, show 8 * (n + 1) = 8 + 8 * n by omega, Nat.pow_add,
        ← Nat.div_div_eq_div_mul, Nat.add_mul_div_left _ _ (by decide), Nat.div_eq_of_lt b.isLt,
        Nat.zero_add]

/-- The value of the first `n` bytes. -/
theorem leValue_take (bs : List Byte) (n : Nat) :
    leValue (bs.take n) = leValue bs % 2 ^ (8 * n) := by
  induction n generalizing bs with
  | zero => simp [leValue, Nat.mod_one]
  | succ n ih =>
    cases bs with
    | nil => simp [leValue]
    | cons b bs =>
      rw [List.take_succ_cons, leValue, ih, leValue, show 8 * (n + 1) = 8 + 8 * n by omega, Nat.pow_add,
        Nat.mod_mul, Nat.add_mul_mod_self_left, Nat.mod_eq_of_lt b.isLt,
        Nat.add_mul_div_left _ _ (by decide), Nat.div_eq_of_lt b.isLt, Nat.zero_add]

/-- The value of 384 bytes, with no cut. -/
theorem elementOf_toNat (bs : List Byte) (h : bs.length = 384) : (elementOf bs).toNat = leValue bs := by
  have := leValue_lt bs
  rw [h] at this
  rw [elementOf, BitVec.toNat_ofNat, Nat.mod_eq_of_lt this]

end Sys2Proof.Machine
end

