-- ==== Sys2Proof/Laws/PerInstr.lean ====
section
/-! SUPPORT. The families of lemmas with one lemma for each command. -/

namespace Sys2Proof.Laws

/-! ### RowMatch: the word of a command matches the command's own row of the opcode map -/

/-- Some row of the opcode map has the command's mnemonic and matches its word, whatever the operands
(R65). -/
def RowMatch.Statement (i : Instr) : Prop :=
  ∃ r ∈ rows, r.mnemonic = i.mnemonic ∧ r.matches (encode i) = true

theorem RowMatch.nop : RowMatch.Statement (.nop) :=
  ⟨rows[0], List.getElem_mem _, rfl, by decide⟩

theorem RowMatch.setone (rd : Reg) : RowMatch.Statement (.setone rd) := by
  refine ⟨rows[1], List.getElem_mem _, rfl, ?_⟩
  rw [Row.matches, beq_iff_eq, show rows[1].mask = 0xFF#8 ++ 0#3 ++ 7#3 ++ 0x3F#6 ++ 0xfff#12 by decide,
    encode, wordR_and]
  simp only [BitVec.and_zero]
  rfl

theorem RowMatch.cpy (rd : Reg) (rs : Reg) : RowMatch.Statement (.cpy rd rs) := by
  refine ⟨rows[2], List.getElem_mem _, rfl, ?_⟩
  rw [Row.matches, beq_iff_eq, show rows[2].mask = 0xFF#8 ++ 0#3 ++ 0#3 ++ 0x3F#6 ++ 0xfff#12 by decide,
    encode, wordR_and]
  simp only [BitVec.and_zero]
  rfl

theorem RowMatch.isovf (rd : Reg) : RowMatch.Statement (.isovf rd) := by
  refine ⟨rows[3], List.getElem_mem _, rfl, ?_⟩
  rw [Row.matches, beq_iff_eq, show rows[3].mask = 0xFF#8 ++ 0#3 ++ 7#3 ++ 0x3F#6 ++ 0xfff#12 by decide,
    encode, wordR_and]
  simp only [BitVec.and_zero]
  rfl

theorem RowMatch.fred (rd : Reg) : RowMatch.Statement (.fred rd) := by
  refine ⟨rows[4], List.getElem_mem _, rfl, ?_⟩
  rw [Row.matches, beq_iff_eq, show rows[4].mask = 0xFF#8 ++ 0#3 ++ 7#3 ++ 0x3F#6 ++ 0xfff#12 by decide,
    encode, wordR_and]
  simp only [BitVec.and_zero]
  rfl

theorem RowMatch.canon (rd : Reg) : RowMatch.Statement (.canon rd) := by
  refine ⟨rows[5], List.getElem_mem _, rfl, ?_⟩
  rw [Row.matches, beq_iff_eq, show rows[5].mask = 0xFF#8 ++ 0#3 ++ 7#3 ++ 0x3F#6 ++ 0xfff#12 by decide,
    encode, wordR_and]
  simp only [BitVec.and_zero]
  rfl

theorem RowMatch.cmpeq (rd : Reg) (rs : Reg) : RowMatch.Statement (.cmpeq rd rs) := by
  refine ⟨rows[6], List.getElem_mem _, rfl, ?_⟩
  rw [Row.matches, beq_iff_eq, show rows[6].mask = 0xFF#8 ++ 0#3 ++ 0#3 ++ 0x3F#6 ++ 0xfff#12 by decide,
    encode, wordR_and]
  simp only [BitVec.and_zero]
  rfl

theorem RowMatch.clrflg : RowMatch.Statement (.clrflg) :=
  ⟨rows[7], List.getElem_mem _, rfl, by decide⟩

theorem RowMatch.mul (rd : Reg) (rs : Reg) : RowMatch.Statement (.mul rd rs) := by
  refine ⟨rows[8], List.getElem_mem _, rfl, ?_⟩
  rw [Row.matches, beq_iff_eq, show rows[8].mask = 0xFF#8 ++ 0#3 ++ 0#3 ++ 0x3F#6 ++ 0xfff#12 by decide,
    encode, wordR_and]
  simp only [BitVec.and_zero]
  rfl

theorem RowMatch.sqr (rd : Reg) : RowMatch.Statement (.sqr rd) := by
  refine ⟨rows[9], List.getElem_mem _, rfl, ?_⟩
  rw [Row.matches, beq_iff_eq, show rows[9].mask = 0xFF#8 ++ 0#3 ++ 7#3 ++ 0x3F#6 ++ 0xfff#12 by decide,
    encode, wordR_and]
  simp only [BitVec.and_zero]
  rfl

theorem RowMatch.inv (rd : Reg) (rs : Reg) : RowMatch.Statement (.inv rd rs) := by
  refine ⟨rows[10], List.getElem_mem _, rfl, ?_⟩
  rw [Row.matches, beq_iff_eq, show rows[10].mask = 0xFF#8 ++ 0#3 ++ 0#3 ++ 0x3F#6 ++ 0xfff#12 by decide,
    encode, wordR_and]
  simp only [BitVec.and_zero]
  rfl

theorem RowMatch.div (rd : Reg) (rs : Reg) : RowMatch.Statement (.div rd rs) := by
  refine ⟨rows[11], List.getElem_mem _, rfl, ?_⟩
  rw [Row.matches, beq_iff_eq, show rows[11].mask = 0xFF#8 ++ 0#3 ++ 0#3 ++ 0x3F#6 ++ 0xfff#12 by decide,
    encode, wordR_and]
  simp only [BitVec.and_zero]
  rfl

theorem RowMatch.sqnmul (rd : Reg) (rs : Reg) (k : Nat) : RowMatch.Statement (.sqnmul rd rs k) := by
  refine ⟨rows[12], List.getElem_mem _, rfl, ?_⟩
  rw [Row.matches, beq_iff_eq, show rows[12].mask = 0xFF#8 ++ 0#3 ++ 0#3 ++ 0x3F#6 ++ 0x0#12 by decide,
    encode, wordR_and]
  simp only [BitVec.and_zero]
  rfl

theorem RowMatch.ld (rd : Reg) (addr : Nat) : RowMatch.Statement (.ld rd addr) := by
  refine ⟨rows[13], List.getElem_mem _, rfl, ?_⟩
  rw [Row.matches, beq_iff_eq, show rows[13].mask = 0xFF#8 ++ 0#3 ++ 0x1F#5 ++ 0#16 by decide,
    encode, wordM_and]
  simp only [BitVec.and_zero]
  rfl

theorem RowMatch.ldc (rd : Reg) (addr : Nat) : RowMatch.Statement (.ldc rd addr) := by
  refine ⟨rows[14], List.getElem_mem _, rfl, ?_⟩
  rw [Row.matches, beq_iff_eq, show rows[14].mask = 0xFF#8 ++ 0#3 ++ 0x1F#5 ++ 0#16 by decide,
    encode, wordM_and]
  simp only [BitVec.and_zero]
  rfl

theorem RowMatch.st (rd : Reg) (addr : Nat) : RowMatch.Statement (.st rd addr) := by
  refine ⟨rows[15], List.getElem_mem _, rfl, ?_⟩
  rw [Row.matches, beq_iff_eq, show rows[15].mask = 0xFF#8 ++ 0#3 ++ 0x1F#5 ++ 0#16 by decide,
    encode, wordM_and]
  simp only [BitVec.and_zero]
  rfl

theorem RowMatch.clracc (t : AccSel) : RowMatch.Statement (.clracc t) := by
  refine ⟨rows[16], List.getElem_mem _, rfl, ?_⟩
  rw [Row.matches, beq_iff_eq, show rows[16].mask = 0xFF#8 ++ 0#1 ++ 7#3 ++ 127#7 ++ 7#3 ++ 127#7 ++ 7#3 by decide,
    encode, wordL_and]
  simp only [BitVec.and_zero]
  rfl

theorem RowMatch.mul2 (t : AccSel) (ra : Reg) (ia : Nat) (rb : Reg) (ib : Nat) : RowMatch.Statement (.mul2 t ra ia rb ib) := by
  refine ⟨rows[17], List.getElem_mem _, rfl, ?_⟩
  rw [Row.matches, beq_iff_eq, show rows[17].mask = 0xFF#8 ++ 0#1 ++ 0#3 ++ 0#7 ++ 0#3 ++ 0#7 ++ 7#3 by decide,
    encode, wordL_and]
  simp only [BitVec.and_zero]
  rfl

theorem RowMatch.muladd3 (t : AccSel) (ra : Reg) (ia : Nat) (rb : Reg) (ib : Nat) : RowMatch.Statement (.muladd3 t ra ia rb ib) := by
  refine ⟨rows[18], List.getElem_mem _, rfl, ?_⟩
  rw [Row.matches, beq_iff_eq, show rows[18].mask = 0xFF#8 ++ 0#1 ++ 0#3 ++ 0#7 ++ 0#3 ++ 0#7 ++ 7#3 by decide,
    encode, wordL_and]
  simp only [BitVec.and_zero]
  rfl

theorem RowMatch.muldbladd3 (t : AccSel) (ra : Reg) (ia : Nat) (rb : Reg) (ib : Nat) : RowMatch.Statement (.muldbladd3 t ra ia rb ib) := by
  refine ⟨rows[19], List.getElem_mem _, rfl, ?_⟩
  rw [Row.matches, beq_iff_eq, show rows[19].mask = 0xFF#8 ++ 0#1 ++ 0#3 ++ 0#7 ++ 0#3 ++ 0#7 ++ 7#3 by decide,
    encode, wordL_and]
  simp only [BitVec.and_zero]
  rfl

theorem RowMatch.mulnadd3 : RowMatch.Statement (.mulnadd3) :=
  ⟨rows[20], List.getElem_mem _, rfl, by decide⟩

theorem RowMatch.muln2 : RowMatch.Statement (.muln2) :=
  ⟨rows[21], List.getElem_mem _, rfl, by decide⟩

theorem RowMatch.extract3 (t : AccSel) (ra : Reg) (ia : Nat) : RowMatch.Statement (.extract3 t ra ia) := by
  refine ⟨rows[22], List.getElem_mem _, rfl, ?_⟩
  rw [Row.matches, beq_iff_eq, show rows[22].mask = 0xFF#8 ++ 0#1 ++ 0#3 ++ 0#7 ++ 7#3 ++ 127#7 ++ 7#3 by decide,
    encode, wordL_and]
  simp only [BitVec.and_zero]
  rfl

theorem RowMatch.addnextract2 (ra : Reg) (ia : Nat) (rb : Reg) (ib : Nat) : RowMatch.Statement (.addnextract2 ra ia rb ib) := by
  refine ⟨rows[23], List.getElem_mem _, rfl, ?_⟩
  rw [Row.matches, beq_iff_eq, show rows[23].mask = 0xFF#8 ++ 1#1 ++ 0#3 ++ 0#7 ++ 0#3 ++ 0#7 ++ 7#3 by decide,
    encode, wordL_and]
  simp only [BitVec.and_zero]
  rfl

end Sys2Proof.Laws
end

