-- ==== Sys2Proof/Tests/Slice0.lean ====
section
/-! SUPPORT. Tests of the model against the spec's own words and numbers (95_test_vectors.md, by section),
the smoke test of WellFormed, and for every statement with hypotheses a witness that they can be met. -/

-- One theorem at a time: checked in parallel, these tests need a thread each.
set_option Elab.async false

namespace Sys2Proof.Tests

open Sys2Proof Sys2Proof.Machine

/-! ### Small states -/

/-- The engine after reset, limb width `w`, 8192 bytes of operand memory, registers 0. -/
def clean (w : LimbWidth) : State := State.afterReset { width := w, omemBytes := 8192 } Regs.zero []

/-- `clean .w64` with two registers set. -/
def with01 (x y : Nat) : State :=
  ((clean .w64).setReg .e0 (BitVec.ofNat 3072 x)).setReg .e1 (BitVec.ofNat 3072 y)

/-- A state of limb width `w` with `ACC`, `DACC`, and limb 0 of `E0` and of `E1` set. -/
def limbs (w : LimbWidth) (acc dacc : Acc) (x y : Nat) : State :=
  { ((clean w).setReg .e0 (BitVec.ofNat 3072 x)).setReg .e1 (BitVec.ofNat 3072 y) with
    acc := acc, dacc := dacc }

/-- The faulted engine, after an illegal word. -/
def faulted : State := (clean .w32).raiseFault .illegalCommand 0xFFFFFFFF

/-- The outcome is a next state of which `f` holds. -/
def next (o : Host.Outcome State Fault Refusal) (f : State → Bool) : Bool :=
  match o with
  | .next t => f t
  | .fault _ => false
  | .refused _ => false

/-- The outcome is a next state with fault record `c`, `w`. -/
def trapped (o : Host.Outcome State Fault Refusal) (c : Cause) (w : Word) : Bool :=
  next o fun t => t.fault && decide (t.cause = c) && decide (t.fcmd = w)

/-- `E[r]` as a number. -/
def val (t : State) (r : Reg) : Nat := (t.reg r).toNat

/-- `2^3072 − 1`. -/
def maskValue : Nat := 2 ^ 3072 - 1

/-! ### WellFormed: each check refuses a term that a word cannot hold -/

theorem test_wf_refuses_count : (Instr.sqnmul .e0 .e1 4096).wf = false := by decide
theorem test_wf_refuses_ld_address : (Instr.ld .e0 65536).wf = false := by decide
theorem test_wf_refuses_ldc_address : (Instr.ldc .e0 65536).wf = false := by decide
theorem test_wf_refuses_st_address : (Instr.st .e0 65536).wf = false := by decide
theorem test_wf_refuses_mul2_index :
    (Instr.mul2 .acc .e0 128 .e0 0).wf = false ∧ (Instr.mul2 .acc .e0 0 .e0 128).wf = false := by decide
theorem test_wf_refuses_muladd3_index :
    (Instr.muladd3 .acc .e0 128 .e0 0).wf = false ∧
      (Instr.muladd3 .acc .e0 0 .e0 128).wf = false := by decide
theorem test_wf_refuses_muldbladd3_index :
    (Instr.muldbladd3 .acc .e0 128 .e0 0).wf = false ∧
      (Instr.muldbladd3 .acc .e0 0 .e0 128).wf = false := by decide
theorem test_wf_refuses_extract3_index : (Instr.extract3 .acc .e0 128).wf = false := by decide
theorem test_wf_refuses_addnextract2_index :
    (Instr.addnextract2 .e0 128 .e0 0).wf = false ∧
      (Instr.addnextract2 .e0 0 .e0 128).wf = false := by decide
theorem test_wf_takes_the_largest :
    (Instr.sqnmul .e0 .e1 4095).wf = true ∧ (Instr.ld .e0 65535).wf = true ∧
      (Instr.muladd3 .acc .e0 127 .e0 127).wf = true := by decide

/-! ### Decoding (section 2): the spec's word of every command, field by field where it splits them -/

theorem test_decode_element :
    decode 0x00000000 = .ok .nop ∧ decode 0x01200000 = .ok (.setone .e1) ∧
    decode 0x02E00000 = .ok (.cpy .e7 .e0) ∧ decode 0x02200000 = .ok (.cpy .e1 .e0) ∧
    decode 0x03000000 = .ok (.isovf .e0) ∧ decode 0x04400000 = .ok (.fred .e2) ∧
    decode 0x05600000 = .ok (.canon .e3) ∧ decode 0x06F40000 = .ok (.cmpeq .e7 .e5) ∧
    decode 0x07000000 = .ok .clrflg := by decide

theorem test_decode_field :
    decode 0x10080000 = .ok (.mul .e0 .e2) ∧ decode 0x11800000 = .ok (.sqr .e4) ∧
    decode 0x12A00000 = .ok (.inv .e5 .e0) ∧ decode 0x13040000 = .ok (.div .e0 .e1) ∧
    decode 0x14FC0001 = .ok (.sqnmul .e7 .e7 1) ∧ decode 0x14FC0FFF = .ok (.sqnmul .e7 .e7 4095) ∧
    decode 0x1428000C = .ok (.sqnmul .e1 .e2 12) := by decide

theorem test_decode_memory :
    decode 0x20600180 = .ok (.ld .e3 384) ∧ decode 0x20200001 = .ok (.ld .e1 1) ∧
    decode 0x21400180 = .ok (.ldc .e2 384) ∧ decode 0x22000300 = .ok (.st .e0 768) := by decide

theorem test_decode_limb :
    decode 0x30000000 = .ok (.clracc .acc) ∧ decode 0x30800000 = .ok (.clracc .dacc) ∧
    decode 0x3185E578 = .ok (.mul2 .dacc .e0 47 .e1 47) ∧
    decode 0x320BE178 = .ok (.muladd3 .acc .e0 95 .e0 47) ∧
    decode 0x33000410 = .ok (.muldbladd3 .acc .e0 0 .e1 2) ∧ decode 0x34000000 = .ok .mulnadd3 ∧
    decode 0x35000000 = .ok .muln2 ∧ decode 0x36B0A000 = .ok (.extract3 .dacc .e3 5) ∧
    decode 0x37208000 = .ok (.addnextract2 .e2 4 .e0 0) := by decide

/-- Words written out bit by bit from the field layouts of R61 to R63. -/
theorem test_decode_bits :
    decode (0b00010100#8 ++ 0b101#3 ++ 0b011#3 ++ 0b000000#6 ++ 0b000000010001#12) =
      .ok (.sqnmul .e5 .e3 17) ∧
    decode (0b00100010#8 ++ 0b110#3 ++ 0b00000#5 ++ 0b1000000000000011#16) =
      .ok (.st .e6 0x8003) ∧
    decode (0b00110011#8 ++ 0b1#1 ++ 0b010#3 ++ 0b0000101#7 ++ 0b100#3 ++ 0b0001001#7 ++ 0b000#3) =
      .ok (.muldbladd3 .dacc .e2 5 .e4 9) := by decide +kernel

/-- Whether the decoder rejects a word, by name. -/
def rejected (w : Word) : Bool := decide (decode w = .error (.illegalCommand w))

theorem test_decode_refuses :
    [0x08000000#32, 0xFFFFFFFF#32, 0x00000001#32, 0x01040000#32, 0x11800001#32, 0x14001000#32,
      0x20010000#32, 0x34800000#32, 0x37800000#32, 0x32000001#32, 0x320FE3F9#32, 0x36000008#32,
      0x30000400#32].all rejected = true := by decide +kernel

theorem test_decode_table_word :
    decodeTableWord 32 0x10080000 = some (.mul .e0 .e2) ∧ decodeTableWord 32 0x08000000 = none := by
  decide

theorem test_assembly :
    assembly (.mul2 .dacc .e0 47 .e1 47) = "MUL2 DACC, E0[47], E1[47]" ∧
      assembly (.sqnmul .e7 .e7 4095) = "SQNMUL E7, E7, 4095" ∧ assembly .mulnadd3 = "MULNADD3" := by
  decide +kernel

/-! ### The command port (section 2, R67, R70, R173) -/

/-- An illegal word wins over its limb indices (R175). -/
theorem test_issue_illegal :
    trapped (step ((clean .w64).withFetchWord 32 0x320FE3F9)) .illegalCommand 0x320FE3F9 = true := by
  decide +kernel

/-- `MULADD3 ACC, E0[48], E0[0]` is legal at `W = 32` and `LIMB_INDEX` at `W = 64`. -/
theorem test_issue_limb_index :
    trapped (step ((clean .w64).withFetchWord 32 0x32060000)) .limbIndex 0x32060000 = true ∧
      next (step ((clean .w32).withFetchWord 32 0x32060000)) (fun t => !t.fault) = true := by
  decide +kernel

theorem test_issue_omem_range :
    trapped (step ((clean .w64).withFetchWord 32 0x20001E81)) .omemRange 0x20001E81 = true ∧
      next (step ((clean .w64).withFetchWord 32 0x20001E80)) (fun t => !t.fault) = true ∧
      trapped (step ((clean .w64).withFetchWord 32 0x2200FFFF)) .omemRange 0x2200FFFF = true := by
  decide +kernel

theorem test_issue_while_faulted :
    next (step (faulted.withFetchWord 32 0x01000000)) (fun t => decide (t = faulted)) = true := by
  decide +kernel

theorem test_control_registers :
    (clean .w32).csr 0 = 0x01086020 ∧ (clean .w64).csr 0 = 0x01083040 ∧ (clean .w64).csr 5 = 0x2000 ∧
      faulted.csr 1 = 1 ∧ faulted.csr 3 = 1 ∧ faulted.csr 4 = 0xFFFFFFFF ∧ faulted.csr 6 = 0 := by
  decide +kernel

/-! ### Element housekeeping (section 5) -/

theorem test_nop : next (exec .nop (with01 3 5)) (fun t => decide (t = with01 3 5)) = true := by
  decide +kernel
theorem test_setone : next (exec (.setone .e1) (with01 3 5)) (fun t => val t .e1 == 1) = true := by
  decide +kernel
/-- No reduction: `p + 1` is copied as it is. -/
theorem test_cpy :
    next (exec (.cpy .e1 .e0) (with01 (modulus + 1) 5)) (fun t => val t .e1 == modulus + 1) = true := by
  decide +kernel
theorem test_isovf_at_p :
    next (exec (.isovf .e0) { with01 modulus 0 with flags := ⟨false, true, true⟩ })
      (fun t => t.flags.word == 7) = true := by decide +kernel
theorem test_isovf_below_p :
    next (exec (.isovf .e0) (with01 (modulus - 1) 0)) (fun t => t.flags.word == 0) = true := by
  decide +kernel
theorem test_fred_below_p :
    next (exec (.fred .e0) (with01 0 0)) (fun t => val t .e0 == 0x10D765) = true := by decide +kernel
theorem test_fred_mask :
    next (exec (.fred .e0) (with01 maskValue 0)) (fun t => val t .e0 == 0x10D764) = true := by
  decide +kernel
theorem test_canon_p_plus_1 :
    next (exec (.canon .e0) (with01 (modulus + 1) 0)) (fun t => val t .e0 == 1) = true := by
  decide +kernel
theorem test_canon_below_p :
    next (exec (.canon .e0) (with01 (modulus - 1) 0)) (fun t => val t .e0 == modulus - 1) = true := by
  decide +kernel
/-- Equality of bits, not modulo `p`. -/
theorem test_cmpeq_congruent :
    next (exec (.cmpeq .e0 .e1) (with01 (modulus + 1) 1)) (fun t => !t.flags.eq) = true := by
  decide +kernel
theorem test_cmpeq_same :
    next (exec (.cmpeq .e0 .e1) (with01 maskValue maskValue)) (fun t => t.flags.word == 2) = true := by
  decide +kernel
theorem test_clrflg :
    next (exec .clrflg { faulted with flags := ⟨true, true, true⟩ })
      (fun t => t.flags.word == 0 && t.fault) = true := by decide +kernel

/-! ### Field arithmetic (sections 4 and 6) -/

theorem test_mul_mask :
    next (exec (.mul .e0 .e1) (with01 maskValue maskValue)) (fun t => val t .e0 == 0x11BA1B91F10) =
      true := by decide +kernel
theorem test_mul_p_minus_1 :
    next (exec (.mul .e0 .e1) (with01 (modulus - 1) (modulus - 1))) (fun t => val t .e0 == 1) = true := by
  decide +kernel
theorem test_sqr_power :
    next (exec (.sqr .e0) (with01 (2 ^ 1536) 0)) (fun t => val t .e0 == 0x10D765) = true := by
  decide +kernel
theorem test_sqr_p : next (exec (.sqr .e0) (with01 modulus 0)) (fun t => val t .e0 == 0) = true := by
  decide +kernel
/-- The inverse of 2 is `2^3071 − 551858`, in place. -/
theorem test_inv_two :
    next (exec (.inv .e0 .e0) (with01 2 0)) (fun t => val t .e0 == 2 ^ 3071 - 551858) = true := by
  decide +kernel
theorem test_div_six_by_three :
    next (exec (.div .e0 .e1) (with01 6 3)) (fun t => val t .e0 == 2 && val t .e1 == 3) = true := by
  decide +kernel
theorem test_sqnmul :
    next (exec (.sqnmul .e0 .e1 3) (with01 2 3)) (fun t => val t .e0 == 768) = true := by
  decide +kernel
/-- With `rs = rd` the multiplier is the value at issue: `7^2 · 7`. -/
theorem test_sqnmul_same_register :
    next (exec (.sqnmul .e0 .e0 1) (with01 7 0)) (fun t => val t .e0 == 343) = true := by
  decide +kernel

/-! ### Load and store (section 7) -/

theorem test_ld_unaligned :
    next (exec (.ld .e0 1) { clean .w64 with omem := [(1, 0x9b), (2, 0x28), (384, 0x80), (385, 0xff)] })
      (fun t => val t .e0 == 0x289b + 2 ^ 3071) = true := by decide +kernel
theorem test_st :
    next (exec (.st .e0 3) { with01 0x0201 0 with omem := [(2, 7), (5, 9), (386, 8), (387, 6)] })
      (fun t => decide (t.omem = [(2, 7), (3, 1), (4, 2), (387, 6)])) = true := by decide +kernel
theorem test_ldc_loads :
    next (exec (.ldc .e0 0) { clean .w64 with omem := [(0, 5)], flags := ⟨true, true, true⟩ })
      (fun t => val t .e0 == 5 && t.flags.word == 6) = true := by decide +kernel
/-- The image of `p` is rejected and the register is unchanged. -/
theorem test_ldc_rejects_p :
    next (exec (.ldc .e0 0)
        { with01 9 0 with omem := Memory.writeBytes [] 0 (imageOf (BitVec.ofNat 3072 modulus)) })
      (fun t => val t .e0 == 9 && t.flags.word == 1 && !t.fault) = true := by decide +kernel

/-! ### Limb operations (section 3) -/

theorem test_clracc :
    next (exec (.clracc .dacc) (limbs .w64 ⟨4, 5, 6⟩ ⟨1, 2, 3⟩ 0 0))
      (fun t => decide (t.dacc = ⟨0, 0, 0⟩ ∧ t.acc = ⟨4, 5, 6⟩)) = true := by decide +kernel
theorem test_mul2_32 :
    next (exec (.mul2 .acc .e0 0 .e1 0) (limbs .w32 ⟨7, 7, 7⟩ ⟨0, 0, 0⟩ 0xFFFFFFFF 0xFFFFFFFF))
      (fun t => decide (t.acc = ⟨1, 0xFFFFFFFE, 0⟩)) = true := by decide +kernel
theorem test_mul2_64 :
    next (exec (.mul2 .dacc .e0 0 .e1 0)
        (limbs .w64 ⟨7, 7, 7⟩ ⟨0, 0, 0⟩ 0xFFFFFFFFFFFFFFFF 0xFFFFFFFFFFFFFFFF))
      (fun t => decide (t.dacc = ⟨1, 0xFFFFFFFFFFFFFFFE, 0⟩ ∧ t.acc = ⟨7, 7, 7⟩)) = true := by
  decide +kernel
theorem test_muladd3_carry :
    next (exec (.muladd3 .acc .e0 0 .e1 0)
        (limbs .w32 ⟨0xFFFFFFFF, 0xFFFFFFFF, 0⟩ ⟨0, 0, 0⟩ 0xFFFFFFFF 0xFFFFFFFF))
      (fun t => decide (t.acc = ⟨0, 0xFFFFFFFE, 1⟩) && !t.flags.aov) = true := by decide +kernel
theorem test_muladd3_overflow :
    next (exec (.muladd3 .acc .e0 0 .e1 0)
        (limbs .w64 ⟨0xFFFFFFFFFFFFFFFF, 0xFFFFFFFFFFFFFFFF, 0xFFFFFFFFFFFFFFFF⟩ ⟨0, 0, 0⟩ 1 1))
      (fun t => decide (t.acc = ⟨0, 0, 0⟩) && t.flags.aov && !t.fault) = true := by decide +kernel
theorem test_muldbladd3 :
    next (exec (.muldbladd3 .acc .e0 0 .e1 0)
        (limbs .w64 ⟨0, 0, 0⟩ ⟨0, 0, 0⟩ 0xFFFFFFFFFFFFFFFF 0xFFFFFFFFFFFFFFFF))
      (fun t => decide (t.acc = ⟨2, 0xFFFFFFFFFFFFFFFC, 1⟩)) = true := by decide +kernel
theorem test_mulnadd3 :
    next (exec .mulnadd3 (limbs .w32 ⟨5, 6, 0⟩ ⟨1, 0xFFFFFFFE, 0⟩ 0 0))
      (fun t => decide (t.acc = ⟨0x0010D76A, 0xFFDE513C, 0x0010D764⟩) && !t.flags.aov) = true := by
  decide +kernel
theorem test_mulnadd3_overflow :
    next (exec .mulnadd3 (limbs .w32 ⟨0, 0, 0⟩ ⟨0, 0, 0xFFFFFFFF⟩ 0 0))
      (fun t => decide (t.acc = ⟨0, 0, 0xFFEF289B⟩) && t.flags.aov) = true := by decide +kernel
theorem test_muln2 :
    next (exec .muln2 (limbs .w32 ⟨0xFFFFFFFF, 1, 9⟩ ⟨0, 0, 0⟩ 0 0))
      (fun t => decide (t.acc = ⟨0xFFEF289B, 0x0021AEC9, 9⟩) && !t.flags.aov) = true := by
  decide +kernel
theorem test_muln2_overflow :
    next (exec .muln2 (limbs .w64 ⟨0, 0xFFFFFFFFFFFFFFFF, 0⟩ ⟨0, 0, 0⟩ 0 0))
      (fun t => decide (t.acc = ⟨0, 0xFFFFFFFFFFEF289B, 0⟩) && t.flags.aov) = true := by
  decide +kernel
/-- The register's other limbs are kept. -/
theorem test_extract3 :
    next (exec (.extract3 .acc .e0 1) (limbs .w32 ⟨1, 2, 3⟩ ⟨0, 0, 0⟩ (5 + 2 ^ 32 * 6 + 2 ^ 64 * 7) 0))
      (fun t => decide (t.acc = ⟨2, 3, 0⟩) && val t .e0 == 5 + 2 ^ 32 + 2 ^ 64 * 7) = true := by
  decide +kernel
theorem test_addnextract2_cascade :
    next (exec (.addnextract2 .e2 4 .e0 0)
        (limbs .w64 ⟨0xFFFFFFFFFFFFFFFF, 0xFFFFFFFFFFFFFFFF, 4⟩ ⟨0, 0, 0⟩ 1 0))
      (fun t => decide (t.acc = ⟨0, 1, 4⟩) && val t .e2 == 0) = true := by decide +kernel
theorem test_addnextract2 :
    next (exec (.addnextract2 .e2 4 .e0 0) (limbs .w32 ⟨5, 7, 4⟩ ⟨0, 0, 0⟩ 9 0))
      (fun t => decide (t.acc = ⟨7, 0, 4⟩) && val t .e2 == 14 * 2 ^ 128) = true := by decide +kernel

/-! ### Memory -/

theorem test_reset_memory_wf : Memory.Wf State.reset.omem := by decide

theorem next_spec {o : Host.Outcome State Fault Refusal} {f : State → Bool} (h : next o f = true) :
    ∃ t, o = .next t ∧ f t = true := by
  cases o with
  | next t => exact ⟨t, rfl, h⟩
  | fault r => cases h
  | refused r => cases h

/-! ### Witnesses: for each statement with hypotheses, a state and operands that meet all of them -/

/-- `NOP` issued to `clean .w64`, nothing after it. -/
def issueNop : State := (clean .w64).withFetchWord 32 0

theorem test_clean_wf (w : LimbWidth) : (clean w).Wf := by
  cases w <;>
    exact ⟨by decide, ⟨by decide, by decide, by decide⟩, ⟨by decide, by decide, by decide⟩, by decide,
      fun _ h => (List.not_mem_nil h).elim, by decide, fun _ => rfl⟩

theorem witness_DecodeOfEncodeIsTheCommand :
    (Instr.sqnmul .e7 .e7 4095).wf = true ∧ (Instr.st .e7 65535).wf = true ∧
      (Instr.addnextract2 .e7 127 .e7 127).wf = true := by decide
theorem witness_EncodeOfDecodeIsTheWord : decode 0x14FC0FFF = .ok (.sqnmul .e7 .e7 4095) := by decide
theorem witness_DecodingFollowsTheOpcodeMap :
    rows[0].matches 0 = true ∧ rows[0] ∈ rows ∧ ∀ r ∈ rows, r.matches 0xFFFFFFFF = false :=
  ⟨by decide, List.getElem_mem _, by decide⟩
theorem witness_StepExecutesTheIssuedCommand :
    issueNop.script = .csrWrite 6 0 :: [] ∧ issueNop.fault = false ∧ decode 0 = .ok .nop :=
  ⟨rfl, rfl, by decide⟩
theorem witness_IllegalWordRaisesIllegalCommand :
    ((clean .w64).withFetchWord 32 0x320FE3F9).script = .csrWrite 6 0x320FE3F9 :: [] ∧
      ((clean .w64).withFetchWord 32 0x320FE3F9).fault = false ∧
      ∀ r ∈ rows, r.matches 0x320FE3F9 = false := ⟨rfl, rfl, by decide⟩
/-- The event of each clause: a command word, a control register, the last two bytes of operand memory. -/
theorem witness_FaultedEngineDropsCommands :
    (faulted.withFetchWord 32 0x01000000).script = .csrWrite 6 0x01000000 :: [] ∧
      (faulted.withFetchWord 32 0x01000000).fault = true ∧
      (HostAction.csrWrite 6 0x01000000).isReset = false ∧
      ({ faulted with script := [.csrRead 4] } : State).script = .csrRead 4 :: [] ∧
      ({ faulted with script := [.omemRead 8190 2] } : State).script = .omemRead 8190 2 :: [] ∧
      8190 + 2 ≤ faulted.cfg.omemBytes ∧
      ({ faulted with script := [.omemWrite 8190 [1, 2]] } : State).script =
        .omemWrite 8190 [1, 2] :: [] ∧
      ∃ t, step (faulted.withFetchWord 32 0x01000000) = .next t ∧ decide (t = faulted) = true :=
  ⟨rfl, rfl, rfl, rfl, rfl, by decide, rfl, next_spec (by decide +kernel)⟩
theorem witness_IdleEngineKeepsItsState : (clean .w32).script = [] := rfl
theorem witness_ControlRegisterAccesses :
    ({ clean .w32 with script := [.csrRead 6] } : State).script = .csrRead 6 :: [] ∧
      ({ clean .w32 with script := [.csrWrite 5 1] } : State).script = .csrWrite 5 1 :: [] ∧
      ({ clean .w32 with script := [.csrWrite 7 1] } : State).script = .csrWrite 7 1 :: [] ∧
      5 ≠ 6 ∧ 7 ≠ 6 ∧ 6 < 7 := ⟨rfl, rfl, rfl, by decide, by decide, by decide⟩
theorem witness_ControlRegisterContents : (clean .w32).Wf ∧ (clean .w64).Wf :=
  ⟨test_clean_wf _, test_clean_wf _⟩
/-- The last two bytes of operand memory. -/
theorem witness_HostWriteStoresItsBytes :
    ({ clean .w64 with script := [.omemWrite 8190 [1, 2]] } : State).script =
      .omemWrite 8190 [1, 2] :: [] ∧
      8190 + ([1, 2] : List Byte).length ≤ (clean .w64).cfg.omemBytes := ⟨rfl, by decide⟩
theorem witness_HostReadReturnsTheBytes :
    ({ clean .w64 with script := [.omemRead 8190 2] } : State).script = .omemRead 8190 2 :: [] ∧
      8190 + 2 ≤ (clean .w64).cfg.omemBytes := ⟨rfl, by decide⟩
theorem witness_PlatformResetState :
    ({ faulted with script := [.reset ⟨Regs.zero, [7]⟩] } : State).script =
      .reset ⟨Regs.zero, [7]⟩ :: [] := rfl
/-- `p` meets the premise of the first clause and `p − 1` that of the second. -/
theorem witness_FredAddsPrimeDiff :
    modulus ≤ ((with01 modulus 0).reg .e0).toNat ∧
      ((with01 (modulus - 1) 0).reg .e0).toNat < modulus := by decide +kernel
theorem witness_MultiplicationsCommute :
    Reg.e1 ≠ .e0 ∧ Reg.e2 ≠ .e0 ∧
      ∃ t u, exec (.mul .e0 .e1) (with01 3 5) = .next t ∧ exec (.mul .e0 .e2) t = .next u := by
  refine ⟨by decide, by decide, ?_⟩
  simp only [exec, execMul]
  exact ⟨_, _, rfl, rfl⟩
theorem witness_InvWritesThePower :
    ((with01 0 2).reg .e1).toNat % modulus ≠ 0 ∧ ((with01 0 maskValue).reg .e1).toNat % modulus ≠ 0 := by
  decide +kernel
theorem witness_DivWritesTheQuotient :
    ((with01 6 3).reg .e1).toNat % modulus ≠ 0 ∧
      ((with01 6 (modulus - 1)).reg .e1).toNat % modulus ≠ 0 := by decide +kernel
theorem witness_ZeroDivisorLeavesAnyCanonicalValue :
    ((with01 7 0).reg .e1).toNat % modulus = 0 ∧ ((with01 7 modulus).reg .e1).toNat % modulus = 0 := by
  decide +kernel
theorem witness_ImageAndValueAreInverse : (List.replicate 384 (0xff : Byte)).length = 384 :=
  List.length_replicate
theorem witness_LimbsAreRunsOfImageBytes :
    47 < 3072 / LimbWidth.w64.bits ∧ 95 < 3072 / LimbWidth.w32.bits := by decide
/-- The last address inside and the first outside: `LdLoadsTheImage`, `LdcLoadsOnlyCanonicalImages`,
`StStoresTheImage`. -/
theorem witness_image_range :
    7808 + 384 ≤ (clean .w64).cfg.omemBytes ∧ (clean .w64).cfg.omemBytes < 7809 + 384 := by decide
/-- The state of `LDC` with the image of `v` in the last 384 bytes. -/
def atTop (v : Nat) : State :=
  { clean .w64 with omem := Memory.writeBytes [] 7808 (imageOf (BitVec.ofNat 3072 v)) }
theorem atTop_byte (v k : Nat) (hk : k < 384) :
    (BitVec.ofNat 3072 v).extractLsb' (8 * k) 8 = Memory.read (atTop v).omem (7808 + k) := by
  have hl : k < (imageOf (BitVec.ofNat 3072 v)).length := by rw [imageOf_length]; exact hk
  exact (imageOf_getElem _ k hl).symm.trans (Memory.read_writeBytes_inside [] 7808 _ k hl).symm
/-- A value `≥ p`, the smallest. -/
theorem witness_LdcLoadsOnlyCanonicalImages_refused :
    7808 + 384 ≤ (atTop modulus).cfg.omemBytes ∧ modulus ≤ (BitVec.ofNat 3072 modulus).toNat ∧
      ∀ k, k < 384 → (BitVec.ofNat 3072 modulus).extractLsb' (8 * k) 8 =
        Memory.read (atTop modulus).omem (7808 + k) :=
  ⟨by decide, by decide +kernel, atTop_byte _⟩
/-- A value `< p`, the largest. -/
theorem witness_LdcLoadsOnlyCanonicalImages_loaded :
    7808 + 384 ≤ (atTop (modulus - 1)).cfg.omemBytes ∧
      ¬ modulus ≤ (BitVec.ofNat 3072 (modulus - 1)).toNat ∧
      ∀ k, k < 384 → (BitVec.ofNat 3072 (modulus - 1)).extractLsb' (8 * k) 8 =
        Memory.read (atTop (modulus - 1)).omem (7808 + k) :=
  ⟨by decide, by decide +kernel, atTop_byte _⟩
theorem witness_StoreThenLoadRestoresTheValue :
    7808 + 384 ≤ (with01 (modulus - 1) 0).cfg.omemBytes ∧
      (∃ t, exec (.st .e0 7808) (with01 (modulus - 1) 0) = .next t ∧ (!t.fault) = true) ∧
      ((with01 (modulus - 1) 0).reg .e0).toNat < modulus :=
  ⟨by decide, next_spec (by decide +kernel), by decide +kernel⟩
theorem witness_ImageOutsideMemoryRaisesOmemRange : (clean .w64).cfg.omemBytes < 7809 + 384 := by decide
/-- The largest indices at both widths: `Mul2LoadsTheProduct`, `Muladd3AddsTheProduct`,
`Muldbladd3AddsTwiceTheProduct`. -/
theorem witness_limb_products :
    47 < 3072 / (clean .w64).cfg.width.bits ∧ 95 < 3072 / (clean .w32).cfg.width.bits ∧
      0 = (clean .w64).acc.val3 .w64 +
        limbNat .w64 ((clean .w64).reg .e0) 47 * limbNat .w64 ((clean .w64).reg .e1) 47 ∧
      0 = (clean .w32).dacc.val3 .w32 +
        2 * (limbNat .w32 ((clean .w32).reg .e0) 95 * limbNat .w32 ((clean .w32).reg .e1) 0) := by
  decide +kernel
theorem witness_Mulnadd3FoldsDaccIntoAcc :
    1103717 + 5 = (limbs .w32 ⟨5, 0, 0⟩ ⟨1, 0, 0⟩ 0 0).acc.val3 .w32 +
      1103717 * (limbs .w32 ⟨5, 0, 0⟩ ⟨1, 0, 0⟩ 0 0).dacc.val3 .w32 := by decide +kernel
theorem witness_Muln2ScalesTheTwoLowLimbs :
    (2 ^ 32 + 1) * 1103717 =
      ((limbs .w32 ⟨1, 1, 9⟩ ⟨0, 0, 0⟩ 0 0).acc.low.toNat +
        (limbs .w32 ⟨1, 1, 9⟩ ⟨0, 0, 0⟩ 0 0).acc.high.toNat * 2 ^ LimbWidth.w32.bits) * 1103717 := by
  decide +kernel
theorem witness_Extract3TakesTheLowestLimb :
    (clean .w64).Wf ∧ 47 < 3072 / (clean .w64).cfg.width.bits := ⟨test_clean_wf _, by decide⟩
theorem witness_Addnextract2AddsAndTakesTheLowestLimb :
    (clean .w32).Wf ∧ 95 < 3072 / (clean .w32).cfg.width.bits ∧
      0 = (clean .w32).acc.low.toNat + (clean .w32).acc.high.toNat * 2 ^ (clean .w32).cfg.width.bits +
        limbNat (clean .w32).cfg.width ((clean .w32).reg .e1) 95 :=
  ⟨test_clean_wf _, by decide, by decide +kernel⟩
theorem witness_LimbIndexOutOfRangeRaisesLimbIndex :
    3072 / (clean .w64).cfg.width.bits ≤ 48 ∧ 3072 / (clean .w32).cfg.width.bits ≤ 96 := by decide
theorem witness_StepKeepsTheStateWellFormed :
    (clean .w64).Wf ∧ ∃ t, step (clean .w64) = .next t ∧ decide (t = clean .w64) = true :=
  ⟨test_clean_wf _, next_spec (by decide +kernel)⟩
/-- Both causes: an index and a range. -/
theorem witness_FaultsArePreciseAndNeverInvariant :
    decode 0x320C0000 = .ok (.muladd3 .acc .e0 96 .e0 0) ∧ decode 0x20001E81 = .ok (.ld .e0 7809) ∧
      (clean .w64).fault = false ∧
      next (exec (.muladd3 .acc .e0 96 .e0 0) (clean .w64)) (fun t => t.fault) = true ∧
      next (exec (.ld .e0 7809) (clean .w64)) (fun t => t.fault) = true := by decide +kernel
theorem witness_FaultIsStickyUntilReset :
    (∀ a ∈ (faulted.withFetchWord 32 0x01000000).script, a.isReset = false) ∧
      (faulted.withFetchWord 32 0x01000000).fault = true ∧
      ∃ t : State, Sys2Proof.core.run 1 (faulted.withFetchWord 32 0x01000000) = .next t ∧
        decide (t = faulted) = true := ⟨by decide, rfl, next_spec (by decide +kernel)⟩
theorem witness_CleanRunsAreCleanThroughout :
    (∀ a ∈ (issueNop.withFetchWord 32 0).script, a.isReset = false) ∧
      ∃ t : State, Sys2Proof.core.run (1 + 1) (issueNop.withFetchWord 32 0) = .next t ∧ (!t.fault) = true :=
  ⟨by decide, next_spec (by decide +kernel)⟩
/-- An element-level command that answers: `ElementCommandsDoNotDependOnTheLimbWidth`,
`ElementCommandsDoNotTouchTheAccumulators`. -/
theorem witness_element_commands :
    elementLevel (.mul .e0 .e1) = true ∧
      ∃ t, exec (.mul .e0 .e1) (with01 3 5) = .next t ∧ (val t .e0 == 15) = true :=
  ⟨rfl, next_spec (by decide +kernel)⟩
theorem witness_OnlyThreeCommandsReachMemory :
    reachesMemory (.sqr .e0) = false ∧
      (∃ t, exec (.sqr .e0) (with01 3 5) = .next t ∧ (val t .e0 == 9) = true) ∧
      (∀ rd addr, Instr.ld .e0 0 ≠ .st rd addr) ∧
      ∃ t, exec (.ld .e0 0) (with01 3 5) = .next t ∧ (val t .e0 == 0) = true :=
  ⟨rfl, next_spec (by decide +kernel), by simp, next_spec (by decide +kernel)⟩
theorem witness_FlagsAreWrittenOnlyByTheirCommands :
    (∃ t, exec .muln2 { clean .w64 with flags := ⟨true, true, true⟩ } = .next t ∧ t.flags.aov = true) ∧
      Instr.muln2 ≠ .clrflg ∧ (∀ r, Instr.muln2 ≠ .isovf r) ∧ (∀ r addr, Instr.muln2 ≠ .ldc r addr) ∧
      ∀ r q, Instr.muln2 ≠ .cmpeq r q :=
  ⟨next_spec (by decide +kernel), by simp, by simp, by simp, by simp⟩
/-- The clause on `AOV`, with the flag set and a command of the same family that leaves it. -/
theorem witness_FlagsAreWrittenOnlyByTheirCommands_aov :
    (∃ t, exec (.mul2 .acc .e0 0 .e1 0) { clean .w64 with flags := ⟨true, true, true⟩ } = .next t ∧
        t.flags.aov = true) ∧
      mayLoseBits (.mul2 .acc .e0 0 .e1 0) = false ∧ Instr.mul2 .acc .e0 0 .e1 0 ≠ .clrflg :=
  ⟨next_spec (by decide +kernel), rfl, by simp⟩
theorem witness_ArithmeticResultsAreCanonical :
    canonicalDest (.sqnmul .e3 .e1 9) = some .e3 ∧
      ∃ t, exec (.sqnmul .e3 .e1 9) (with01 3 5) = .next t ∧ (val t .e3 == 0) = true :=
  ⟨rfl, next_spec (by decide +kernel)⟩

theorem even_power_mod {x y e k m : Nat} (hx : x = y) (he : e = 2 * k) (h : y ^ 2 % m = 1)
    (h1 : 1 % m = 1) : x ^ e % m = 1 := by
  rw [hx, he, pow_mul, Nat.pow_mod, h, one_pow, h1]

/-- `p − 1` squares to 1 and `p − 1` is even, so the divisor `p − 1`, which is not 1, meets the premise. -/
theorem witness_DivisionUndoesMultiplication :
    Reg.e0 ≠ .e1 ∧ ((with01 6 (modulus - 1)).reg .e1).toNat ^ (modulus - 1) % modulus = 1 :=
  ⟨by decide, even_power_mod (y := modulus - 1) (k := (modulus - 1) / 2) (by decide +kernel)
    (by decide +kernel) (by decide +kernel) (by decide +kernel)⟩

end Sys2Proof.Tests
end

section
/-! PROOFS of the family 00_scope.md. Every update an element-level command makes commutes with the change
of limb width, and every test it makes reads the same at both widths, so the whole command commutes
with it (R9). -/

namespace Sys2Proof.Machine

/-! ### The updates of the element-level commands, at another limb width -/

@[simp] theorem State.withWidth_setReg (s : State) (w : LimbWidth) (r : Reg) (v : Element) :
    (s.withWidth w).setReg r v = (s.setReg r v).withWidth w := rfl

@[simp] theorem State.withWidth_setFlags (s : State) (w : LimbWidth) (f : Flags) :
    (s.withWidth w).setFlags f = (s.setFlags f).withWidth w := rfl

@[simp] theorem State.withWidth_raiseFault (s : State) (w : LimbWidth) (c : Cause) (x : Word) :
    (s.withWidth w).raiseFault c x = (s.raiseFault c x).withWidth w := rfl

@[simp] theorem State.withWidth_drawReg (s : State) (w : LimbWidth) (r : Reg) :
    (s.withWidth w).drawReg r = (s.drawReg r).withWidth w := rfl

@[simp] theorem State.withWidth_drawCanonical (s : State) (w : LimbWidth) (r : Reg) :
    (s.withWidth w).drawCanonical r = (s.drawCanonical r).withWidth w := rfl

@[simp] theorem State.withWidth_storeImage (s : State) (w : LimbWidth) (addr : Nat) (v : Element) :
    (s.withWidth w).storeImage addr v = (s.storeImage addr v).withWidth w := rfl

@[simp] theorem State.withWidth_loadImage (s : State) (w : LimbWidth) (addr : Nat) :
    (s.withWidth w).loadImage addr = s.loadImage addr := rfl

/-- Both ends of a field operation, the result and the failed assertion, are at any width the same. -/
@[simp] theorem State.withWidth_finishField (s : State) (w : LimbWidth) (rd : Reg) (x : Word)
    (result : Option Element) :
    (s.withWidth w).finishField rd x result = (s.finishField rd x result).withWidth w := by
  cases result with
  | some v => simp
  | none => simp [State.raiseInvariant_eq]

/-! ### Outcomes at another limb width -/

/-- The outcome at limb width `w`: a next state is that state at `w`. -/
def outcomeAtWidth (w : LimbWidth) :
    Host.Outcome State Fault Refusal → Host.Outcome State Fault Refusal
  | .next t => .next (t.withWidth w)
  | .fault r => .fault r
  | .refused r => .refused r

@[simp] theorem outcomeAtWidth_next (w : LimbWidth) (t : State) :
    outcomeAtWidth w (.next t) = .next (t.withWidth w) := rfl

/-! ### The element-level commands -/

/-- An element-level command commutes with the change of limb width (R9). The housekeeping commands make
one update from their operands. The commands with a test (a zero divisor, an image inside operand
memory, an image value `≥ p`) take the same branch at both widths, since no test reads the width. -/
theorem exec_withWidth {i : Instr} (hi : elementLevel i = true) (s : State) (w : LimbWidth) :
    exec i (s.withWidth w) = outcomeAtWidth w (exec i s) := by
  cases i with
  | nop | setone | cpy | isovf | fred | canon | cmpeq | clrflg => rfl
  | mul rd rs => simp [exec, execMul]
  | sqr rd => simp [exec, execSqr]
  | sqnmul rd rs k => simp [exec, execSqnmul]
  | inv rd rs => by_cases hz : isZeroMod (s.reg rs) <;> simp [exec, execInv, hz]
  | div rd rs => by_cases hz : isZeroMod (s.reg rs) <;> simp [exec, execDiv, hz]
  | ld rd addr => by_cases hf : s.imageFits addr <;> simp [exec, execLd, hf]
  | ldc rd addr =>
    by_cases hf : s.imageFits addr
    · by_cases ho : isOverflow (s.loadImage addr) <;> simp [exec, execLdc, hf, ho]
    · simp [exec, execLdc, hf]
  | st rd addr => by_cases hf : s.imageFits addr <;> simp [exec, execSt, hf]
  | clracc | mul2 | muladd3 | muldbladd3 | mulnadd3 | muln2 | extract3 | addnextract2 => cases hi

/-- Settles O55: a command that answers `t` at one width answers `t` at the other. -/
theorem elementCommandsDoNotDependOnTheLimbWidth :
    Obligations.ElementCommandsDoNotDependOnTheLimbWidth := by
  intro i s t w hi h
  rw [exec_withWidth hi, h, outcomeAtWidth_next]

end Sys2Proof.Machine
end

section
/-! PROOFS of the family 10_state.md, the outcomes: a property of every next state an outcome can answer,
and a state change passed through an outcome. -/

namespace Sys2Proof.Machine

/-- `P` holds of the next state, if the outcome answers one. -/
def OnNext (P : State → Prop) (o : Host.Outcome State Fault Refusal) : Prop :=
  ∀ t, o = .next t → P t

theorem OnNext.next {P : State → Prop} {t : State} (h : P t) : OnNext P (.next t) :=
  fun _ e => (Host.Outcome.next.inj e) ▸ h

theorem OnNext.fault {P : State → Prop} (r : Fault) : OnNext P (.fault r) :=
  fun _ e => by cases e

theorem OnNext.ite {P : State → Prop} {c : Prop} [Decidable c]
    {o q : Host.Outcome State Fault Refusal} (ho : c → OnNext P o) (hq : ¬ c → OnNext P q) :
    OnNext P (if c then o else q) := by
  split
  · exact ho ‹_›
  · exact hq ‹_›

/-- The outcome with its next state, if it answers one, changed by `g`. -/
def mapNext (g : State → State) :
    Host.Outcome State Fault Refusal → Host.Outcome State Fault Refusal
  | .next t => .next (g t)
  | .fault r => .fault r
  | .refused r => .refused r

@[simp] theorem mapNext_next (g : State → State) (t : State) : mapNext g (.next t) = .next (g t) := rfl

theorem mapNext_ite (g : State → State) (c : Prop) [Decidable c]
    (o q : Host.Outcome State Fault Refusal) :
    mapNext g (if c then o else q) = if c then mapNext g o else mapNext g q :=
  apply_ite (mapNext g) c o q

end Sys2Proof.Machine
end

section
/-! PROOFS of the family 10_state.md, the stream of events: what one step does for each event (R28, R29,
R37, R52). -/

namespace Sys2Proof.Machine

/-- A step with an event left is that event, done in the state without it. -/
theorem step_of_script {s : State} {a : HostAction} {rest : List HostAction}
    (h : s.script = a :: rest) : step s = hostAct a { s with script := rest } := by
  simp [step, nextEvent, h]

theorem hostAct_csrRead (s : State) (n : Nat) :
    hostAct (.csrRead n) s = .next { s with reply := some (.word (s.csr n)) } := rfl

theorem hostAct_csrWrite_cmd (s : State) (w : Word) : hostAct (.csrWrite 6 w) s = issue w s := rfl

theorem hostAct_csrWrite_ignored (s : State) {n : Nat} (w : Word) (hn : n ≠ 6) :
    hostAct (.csrWrite n w) s = .next s :=
  if_neg hn

theorem hostAct_omemRead {s : State} {addr n : Nat} (h : s.bytesFit addr n) :
    hostAct (.omemRead addr n) s =
      .next { s with reply := some (.bytes (Memory.readBytes s.omem addr n)) } :=
  if_pos h

theorem hostAct_omemWrite {s : State} {addr : Nat} {bs : List Byte} (h : s.bytesFit addr bs.length) :
    hostAct (.omemWrite addr bs) s = .next { s with omem := Memory.writeBytes s.omem addr bs } :=
  if_pos h

theorem hostAct_reset (s : State) (d : ResetDraw) : hostAct (.reset d) s = .next (s.platformReset d) :=
  rfl

theorem issue_of_fault {s : State} (hs : s.fault = true) (w : Word) : issue w s = .next s :=
  if_pos hs

theorem issue_of_decode {s : State} {w : Word} {i : Instr} (hs : s.fault = false)
    (hw : decode w = .ok i) : issue w s = exec i s := by
  simp [issue, hs, hw]

theorem issue_of_reject {s : State} {w bad : Word} (hs : s.fault = false)
    (hw : decode w = .error (.illegalCommand bad)) :
    issue w s = .next (s.raiseFault .illegalCommand bad) := by
  simp [issue, hs, hw]

/-- Settles O5: the event is a write to `CMD`, and the engine is clean, so the word is decoded. -/
theorem stepExecutesTheIssuedCommand : Obligations.StepExecutesTheIssuedCommand := by
  intro s w i rest hscript hfault hdecode
  have hclean : ({ s with script := rest } : State).fault = false := hfault
  rw [step_of_script hscript, hostAct_csrWrite_cmd, issue_of_decode hclean hdecode]

/-- Settles O11, by the two laws of a byte read after a write. -/
theorem hostWriteStoresItsBytes : Obligations.HostWriteStoresItsBytes := by
  intro s addr bs rest hscript hfit
  refine ⟨_, (step_of_script hscript).trans (hostAct_omemWrite hfit), ?_, ?_, rfl⟩
  · exact fun k h => Memory.read_writeBytes_inside s.omem addr bs k h
  · exact fun a h => Memory.read_writeBytes_outside s.omem addr bs h

/-- Settles O12, by what `MemRead` is, byte by byte. -/
theorem hostReadReturnsTheBytes : Obligations.HostReadReturnsTheBytes := by
  intro s addr n rest hscript hfit
  exact ⟨Memory.readBytes s.omem addr n, Memory.readBytes_length _ _ _,
    fun k h => Memory.readBytes_getElem _ _ _ k h,
    (step_of_script hscript).trans (hostAct_omemRead hfit)⟩

end Sys2Proof.Machine
end

section
/-! PROOFS of the family 10_state.md, the invariant: every update of the state, every command and every
event keeps the state well formed. -/

namespace Sys2Proof.Machine

/-! ### The updates -/

/-- Well-formedness is about the parameters, the accumulators, operand memory and the fault record alone. -/
theorem State.Wf.congr {s t : State} (h : s.Wf) (hcfg : t.cfg = s.cfg) (hacc : t.acc = s.acc)
    (hdacc : t.dacc = s.dacc) (homem : t.omem = s.omem) (hfault : t.fault = s.fault)
    (hcause : t.cause = s.cause) (hfcmd : t.fcmd = s.fcmd) : t.Wf where
  config := by rw [hcfg]; exact h.config
  acc := by rw [hcfg, hacc]; exact h.acc
  dacc := by rw [hcfg, hdacc]; exact h.dacc
  memory := by rw [homem]; exact h.memory
  memoryFits := by rw [homem, hcfg]; exact h.memoryFits
  cause := by rw [hfault, hcause]; exact h.cause
  fcmd := by rw [hfault, hfcmd]; exact h.fcmd

theorem State.Wf.setReg {s : State} (h : s.Wf) (r : Reg) (v : Element) : (s.setReg r v).Wf :=
  h.congr rfl rfl rfl rfl rfl rfl rfl

theorem State.Wf.setFlags {s : State} (h : s.Wf) (f : Flags) : (s.setFlags f).Wf :=
  h.congr rfl rfl rfl rfl rfl rfl rfl

theorem State.Wf.drawReg {s : State} (h : s.Wf) (r : Reg) : (s.drawReg r).Wf :=
  h.congr rfl rfl rfl rfl rfl rfl rfl

theorem State.Wf.drawCanonical {s : State} (h : s.Wf) (r : Reg) : (s.drawCanonical r).Wf :=
  h.congr rfl rfl rfl rfl rfl rfl rfl

theorem State.Wf.withScript {s : State} (h : s.Wf) (l : List HostAction) :
    ({ s with script := l } : State).Wf :=
  h.congr rfl rfl rfl rfl rfl rfl rfl

theorem State.Wf.withReply {s : State} (h : s.Wf) (p : Option Reply) :
    ({ s with reply := p } : State).Wf :=
  h.congr rfl rfl rfl rfl rfl rfl rfl

/-- Taking a fault fills the whole record, so the record is empty exactly while not faulted. -/
theorem State.Wf.raiseFault {s : State} (h : s.Wf) {c : Cause} (hc : c ≠ .none) (w : Word) :
    (s.raiseFault c w).Wf :=
  { h with cause := by simp [hc], fcmd := by simp }

/-- Both ends of a field operation, the result and the failed assertion. -/
theorem State.Wf.finishField {s : State} (h : s.Wf) (rd : Reg) (w : Word) (result : Option Element) :
    (s.finishField rd w result).Wf := by
  cases result with
  | some v => exact h.setReg rd v
  | none => exact (h.drawReg rd).raiseFault (by decide) w

theorem State.Wf.accum {s : State} (h : s.Wf) (k : AccSel) : (s.accum k).Fits s.cfg.width := by
  cases k with
  | acc => exact h.acc
  | dacc => exact h.dacc

theorem State.Wf.setAccum {s : State} (h : s.Wf) (k : AccSel) {a : Acc} (ha : a.Fits s.cfg.width) :
    (s.setAccum k a).Wf := by
  cases k with
  | acc => exact { h with acc := ha }
  | dacc => exact { h with dacc := ha }

theorem State.Wf.accumulate {s : State} (h : s.Wf) (k : AccSel) {r : AccResult}
    (hr : r.acc.Fits s.cfg.width) : (s.accumulate k r).Wf :=
  (h.setAccum k hr).setFlags _

theorem State.Wf.extract {s : State} (h : s.Wf) (k : AccSel) (r : Reg) (i : Nat) {x : Extracted}
    (hx : x.acc.Fits s.cfg.width) : (s.extract k r i x).Wf := by
  rw [State.extract_eq]
  exact (h.setAccum k hx).setReg r _

/-- Bytes written inside operand memory leave it canonical, with no entry outside its size. -/
theorem State.Wf.writeBytes {s : State} (h : s.Wf) {addr : Nat} {bs : List Byte}
    (hfit : s.bytesFit addr bs.length) :
    ({ s with omem := Memory.writeBytes s.omem addr bs } : State).Wf :=
  { h with
    memory := Memory.writeBytes_wf h.memory addr bs
    memoryFits := fun c hc => by
      rcases Memory.mem_writeBytes hc with hold | ⟨_, hnew⟩
      · exact h.memoryFits c hold
      · exact lt_of_lt_of_le hnew hfit }

theorem State.Wf.storeImage {s : State} (h : s.Wf) {addr : Nat} (hfit : s.imageFits addr)
    (v : Element) : (s.storeImage addr v).Wf :=
  h.writeBytes (by rw [imageOf_length]; exact hfit)

/-- The state after a reset is well formed, whatever canonical memory within its size it has. -/
theorem State.afterReset_wf {cfg : Config} (hcfg : cfg.Wf) (regs : Regs) {m : Memory}
    (hm : Memory.Wf m) (hfit : ∀ c ∈ m, c.1 < cfg.omemBytes) : (State.afterReset cfg regs m).Wf where
  config := hcfg
  acc := Acc.zero_fits _
  dacc := Acc.zero_fits _
  memory := hm
  memoryFits := hfit
  cause := by simp [State.afterReset]
  fcmd := fun _ => rfl

/-- The draw's bytes are cut to the size of operand memory, so any draw leaves a well-formed state. -/
theorem State.Wf.platformReset {s : State} (h : s.Wf) (d : ResetDraw) : (s.platformReset d).Wf := by
  have hfit : ∀ c ∈ Memory.writeBytes [] 0 (d.omem.take s.cfg.omemBytes), c.1 < s.cfg.omemBytes := by
    intro c hc
    rcases Memory.mem_writeBytes hc with hnil | ⟨_, hlt⟩
    · exact (List.not_mem_nil hnil).elim
    · rw [List.length_take] at hlt; omega
  exact (State.afterReset_wf h.config d.regs (Memory.writeBytes_wf Memory.nil_wf _ _) hfit).congr
    rfl rfl rfl rfl rfl rfl rfl

/-! ### The limb operations -/

theorem mul2_fits (w : LimbWidth) (a b : Limb) : (mul2 w a b).Fits w :=
  ⟨limbOf_lt w _, limbOf_lt w _, base_pos w⟩

theorem put3_fits (w : LimbWidth) (v : Nat) : (put3 w v).acc.Fits w := Acc.ofVal3_fits w v

theorem muln2_fits {w : LimbWidth} {a : Acc} (h : a.Fits w) (n : Nat) : (muln2 w a n).acc.Fits w :=
  ⟨limbOf_lt w _, limbOf_lt w _, h.carry⟩

theorem addnextract2_fits {w : LimbWidth} {a : Acc} (h : a.Fits w) (x : Limb) :
    (addnextract2 w a x).acc.Fits w :=
  ⟨limbOf_lt w _, limbOf_lt w _, h.carry⟩

/-! ### The commands and the events -/

/-- Every command keeps the state well formed: each of its branches ends in one of the updates above. -/
theorem exec_wf {s : State} (h : s.Wf) (i : Instr) : OnNext State.Wf (exec i s) := by
  cases i with
  | nop => exact .next h
  | setone | cpy | fred | canon => exact .next (h.setReg _ _)
  | isovf | cmpeq | clrflg => exact .next (h.setFlags _)
  | mul | sqr | sqnmul => exact .next (h.finishField _ _ _)
  | inv | div =>
    exact .ite (fun _ => .next (h.drawCanonical _)) (fun _ => .next (h.finishField _ _ _))
  | ld => exact .ite (fun _ => .next (h.setReg _ _)) (fun _ => .next (h.raiseFault (by decide) _))
  | ldc =>
    exact .ite
      (fun _ => .ite (fun _ => .next (h.setFlags _)) (fun _ => .next ((h.setFlags _).setReg _ _)))
      (fun _ => .next (h.raiseFault (by decide) _))
  | st =>
    exact .ite (fun hfit => .next (h.storeImage hfit _)) (fun _ => .next (h.raiseFault (by decide) _))
  | clracc t => exact .next (h.setAccum t (Acc.zero_fits _))
  | mul2 t =>
    exact .ite (fun _ => .next (h.setAccum t (mul2_fits _ _ _)))
      (fun _ => .next (h.raiseFault (by decide) _))
  | muladd3 t | muldbladd3 t =>
    exact .ite (fun _ => .next (h.accumulate t (put3_fits _ _)))
      (fun _ => .next (h.raiseFault (by decide) _))
  | mulnadd3 => exact .next (h.accumulate .acc (put3_fits _ _))
  | muln2 => exact .next (h.accumulate .acc (muln2_fits h.acc _))
  | extract3 t =>
    exact .ite (fun _ => .next (h.extract t _ _ (extract3_fits (h.accum t))))
      (fun _ => .next (h.raiseFault (by decide) _))
  | addnextract2 =>
    exact .ite (fun _ => .next (h.extract .acc _ _ (addnextract2_fits h.acc _)))
      (fun _ => .next (h.raiseFault (by decide) _))

/-- A word written to `CMD` is dropped, executed or taken as an illegal command. -/
theorem issue_wf {s : State} (h : s.Wf) (w : Word) : OnNext State.Wf (issue w s) := by
  cases hs : s.fault with
  | true => rw [issue_of_fault hs]; exact .next h
  | false =>
    cases hw : decode w with
    | ok i => rw [issue_of_decode hs hw]; exact exec_wf h i
    | error e =>
      obtain ⟨bad⟩ := e
      rw [issue_of_reject hs hw]
      exact .next (h.raiseFault (by decide) bad)

theorem hostAct_wf {s : State} (h : s.Wf) (a : HostAction) : OnNext State.Wf (hostAct a s) := by
  cases a with
  | csrRead n => exact .next (h.withReply _)
  | csrWrite n w => exact .ite (fun _ => issue_wf h w) (fun _ => .next h)
  | omemRead addr n => exact .ite (fun _ => .next (h.withReply _)) (fun _ => .fault _)
  | omemWrite addr bs => exact .ite (fun hfit => .next (h.writeBytes hfit)) (fun _ => .fault _)
  | reset d => exact .next (h.platformReset d)

theorem step_wf {s : State} (h : s.Wf) : OnNext State.Wf (step s) := by
  cases hscript : s.script with
  | nil => simpa [step, nextEvent, hscript] using OnNext.next h
  | cons a rest => rw [step_of_script hscript]; exact hostAct_wf (h.withScript rest) a

/-- Settles O51. -/
theorem stepKeepsTheStateWellFormed : Obligations.StepKeepsTheStateWellFormed :=
  fun _ t h ht => step_wf h t ht

end Sys2Proof.Machine
end

section
/-! PROOFS of the family 10_state.md, the control registers: what each one reads (R26, R28, R30 to R36),
and what a reset leaves in them (R39, R191). -/

namespace Sys2Proof.Machine

/-! ### What each control register reads -/

@[simp] theorem State.csr_id (s : State) : s.csr 0 = idWord s.cfg := rfl
@[simp] theorem State.csr_status (s : State) : s.csr 1 = BitVec.ofNat 32 (flagBit s.fault) := rfl
@[simp] theorem State.csr_flags (s : State) : s.csr 2 = s.flags.word := rfl
@[simp] theorem State.csr_cause (s : State) : s.csr 3 = BitVec.ofNat 32 s.cause.code := rfl
@[simp] theorem State.csr_fcmd (s : State) : s.csr 4 = s.fcmd := rfl
@[simp] theorem State.csr_omemsz (s : State) : s.csr 5 = BitVec.ofNat 32 s.cfg.omemBytes := rfl

/-- `CMD` and every number above it read 0 (R28, R36). -/
theorem State.csr_of_ge (s : State) {n : Nat} (h : 6 ≤ n) : s.csr n = 0 := by
  obtain ⟨k, rfl⟩ := Nat.exists_eq_add_of_le' h
  rfl

/-- `ID` at the two limb widths (R31). -/
theorem idWord_eq (c : Config) :
    idWord c = if c.width = .w32 then 0x01086020#32 else 0x01083040#32 := by
  unfold idWord
  cases c.width <;> decide

theorem statusWord_eq (b : Bool) : BitVec.ofNat 32 (flagBit b) = if b then 1#32 else 0#32 := by
  cases b <;> rfl

/-- The three flags at their bits of `FLAGS`, and no other bit set (R26). -/
theorem Flags.word_bits (f : Flags) :
    f.word.getLsbD 0 = f.ov ∧ f.word.getLsbD 1 = f.eq ∧ f.word.getLsbD 2 = f.aov ∧
      ∀ b, 3 ≤ b → f.word.getLsbD b = false := by
  have hlt : f.word.toNat < 2 ^ 3 := by
    obtain ⟨ov, eq, aov⟩ := f
    cases ov <;> cases eq <;> cases aov <;> decide
  have hhigh : ∀ b, 3 ≤ b → f.word.getLsbD b = false := fun b hb =>
    Nat.testBit_lt_two_pow (lt_of_lt_of_le hlt (Nat.pow_le_pow_right (by decide) hb))
  refine ⟨?_, ?_, ?_, hhigh⟩ <;>
  · obtain ⟨ov, eq, aov⟩ := f
    cases ov <;> cases eq <;> cases aov <;> rfl

theorem Cause.code_le (c : Cause) : c.code ≤ 4 := by cases c <;> decide

theorem Cause.code_eq_zero_iff (c : Cause) : c.code = 0 ↔ c = .none := by cases c <;> decide

theorem Cause.word_toNat (c : Cause) : (BitVec.ofNat 32 c.code).toNat = c.code := by
  cases c <;> rfl

/-- `CAUSE` reads 0 exactly while `STATUS` reads 0, where the fault record is well formed (R32, R33). -/
theorem State.Wf.cause_code_iff {s : State} (h : s.Wf) : s.cause.code = 0 ↔ s.csr 1 = 0#32 := by
  rw [Cause.code_eq_zero_iff, ← h.cause, State.csr_status, statusWord_eq]
  cases s.fault <;> decide

/-- `OMEMSZ` loses no bit: a legal size fits 32 bits (R10, R35). -/
theorem State.Wf.omemsz_toNat {s : State} (h : s.Wf) : (s.csr 5).toNat = s.cfg.omemBytes := by
  have hsize := h.config.2
  rw [State.csr_omemsz, BitVec.toNat_ofNat, Nat.mod_eq_of_lt (by omega)]

/-- Settles O10. -/
theorem controlRegisterContents : Obligations.ControlRegisterContents := by
  intro s h
  refine ⟨?_, statusWord_eq s.fault, s.flags.word_bits, ⟨s.cause.word_toNat, ?_, ?_⟩, rfl,
    h.omemsz_toNat, fun n hn => s.csr_of_ge hn⟩
  · rw [State.csr_id, idWord_eq]
    cases s.cfg.width <;> rfl
  all_goals rw [State.csr_cause, Cause.word_toNat]
  · exact s.cause.code_le
  · exact h.cause_code_iff

/-- Settles O9. -/
theorem controlRegisterAccesses : Obligations.ControlRegisterAccesses := by
  intro s n w rest
  refine ⟨fun hscript => ?_, fun hn => s.csr_of_ge hn.le, fun hscript hn => ?_⟩
  · rw [step_of_script hscript, hostAct_csrRead]; rfl
  · rw [step_of_script hscript, hostAct_csrWrite_ignored _ w hn]

/-! ### Reset -/

/-- A byte that the draw names, inside operand memory, is what operand memory then holds there. -/
theorem State.platformReset_read (s : State) (d : ResetDraw) {k : Nat} (h : k < d.omem.length)
    (hk : k < s.cfg.omemBytes) : Memory.read (s.platformReset d).omem k = d.omem[k] := by
  have hlen : k < (d.omem.take s.cfg.omemBytes).length := by rw [List.length_take]; omega
  have hread := Memory.read_writeBytes_inside [] 0 _ k hlen
  rw [Nat.zero_add, List.getElem_take] at hread
  exact hread

/-- Settles O13: the fields are those of `State.afterReset`, the bytes those of the draw. -/
theorem platformResetState : Obligations.PlatformResetState := by
  intro s d rest hscript
  exact ⟨_, (step_of_script hscript).trans (hostAct_reset _ d), rfl, rfl, rfl, rfl, rfl, rfl, rfl, rfl,
    rfl, rfl, fun k h hk => State.platformReset_read _ d h hk, rfl⟩

/-- Settles O14. -/
theorem resetStateValues : Obligations.ResetStateValues :=
  ⟨rfl, rfl, rfl, rfl, rfl, rfl,
    State.afterReset_wf (by decide) Regs.zero Memory.nil_wf fun _ hc => (List.not_mem_nil hc).elim⟩

end Sys2Proof.Machine
end

section
/-! PROOFS of the family 10_state.md, independence: a command commutes with a change of a part of the
state that it does not read. That it does not write that part either follows by changing the part to
what it already holds. -/

namespace Sys2Proof.Machine

/-! ### The accumulators (R38, R203) -/

/-- The same state with other accumulators. -/
def State.withAccums (s : State) (a d : Acc) : State := { s with acc := a, dacc := d }

theorem State.finishField_withAccums (s : State) (a d : Acc) (rd : Reg) (w : Word)
    (result : Option Element) :
    (s.withAccums a d).finishField rd w result = (s.finishField rd w result).withAccums a d := by
  cases result <;> rfl

/-- An element-level command commutes with a change of the accumulators: no operand and no test of one
reads them, and no update of one writes them. -/
theorem exec_withAccums {i : Instr} (hi : elementLevel i = true) (s : State) (a d : Acc) :
    exec i (s.withAccums a d) = mapNext (·.withAccums a d) (exec i s) := by
  cases i with
  | nop | setone | cpy | isovf | fred | canon | cmpeq | clrflg => rfl
  | mul | sqr | sqnmul => exact congrArg _ (s.finishField_withAccums a d _ _ _)
  | inv | div =>
    simp only [exec, execInv, execDiv, mapNext_ite, mapNext_next, ← State.finishField_withAccums]
    rfl
  | ld | ldc | st => simp only [exec, execLd, execLdc, execSt, mapNext_ite]; rfl
  | clracc | mul2 | muladd3 | muldbladd3 | mulnadd3 | muln2 | extract3 | addnextract2 => cases hi

/-- Settles O56: with the accumulators of `s` itself, the commutation says that none was written. -/
theorem elementCommandsDoNotTouchTheAccumulators :
    Obligations.ElementCommandsDoNotTouchTheAccumulators := by
  intro i s t a d hi h
  have hcomm (a d : Acc) : exec i (s.withAccums a d) = .next (t.withAccums a d) := by
    rw [exec_withAccums hi, h, mapNext_next]
  have hself : t = t.withAccums s.acc s.dacc :=
    Host.Outcome.next.inj (h.symm.trans (hcomm s.acc s.dacc))
  exact ⟨by rw [hself]; rfl, by rw [hself]; rfl, hcomm a d⟩

/-! ### The flags (R26) -/

/-- What a command in state `s` makes of the flags: the flags it writes, computed from what it reads of
`s`, in the flags `f`. `exec_setFlags` ties it to `exec`. -/
def flagsAfter (s : State) : Instr → Flags → Flags
  | .isovf rd, f => f.withOv (isOverflow (s.reg rd))
  | .cmpeq rd rs, f => f.withEq (decide (s.reg rd = s.reg rs))
  | .clrflg, _ => Flags.cleared
  | .ldc _ addr, f => if s.imageFits addr then f.withOv (isOverflow (s.loadImage addr)) else f
  | .muladd3 t ra ia rb ib, f =>
    if s.indexOk ia ∧ s.indexOk ib then
      f.stickAov (muladd3 s.cfg.width (s.accum t) (s.word ra ia) (s.word rb ib)).ovf
    else f
  | .muldbladd3 t ra ia rb ib, f =>
    if s.indexOk ia ∧ s.indexOk ib then
      f.stickAov (muldbladd3 s.cfg.width (s.accum t) (s.word ra ia) (s.word rb ib)).ovf
    else f
  | .mulnadd3, f => f.stickAov (mulnadd3 s.cfg.width s.acc s.dacc primeDiff).ovf
  | .muln2, f => f.stickAov (muln2 s.cfg.width s.acc primeDiff).ovf
  | _, f => f

theorem State.setFlags_self (s : State) : s.setFlags s.flags = s := rfl

theorem State.finishField_setFlags (s : State) (f : Flags) (rd : Reg) (w : Word)
    (result : Option Element) :
    (s.setFlags f).finishField rd w result = (s.finishField rd w result).setFlags f := by
  cases result <;> rfl

theorem State.setAccum_setFlags (s : State) (f : Flags) (k : AccSel) (a : Acc) :
    (s.setFlags f).setAccum k a = (s.setAccum k a).setFlags f := by
  cases k <;> rfl

theorem State.extract_setFlags (s : State) (f : Flags) (k : AccSel) (r : Reg) (i : Nat)
    (x : Extracted) : (s.setFlags f).extract k r i x = (s.extract k r i x).setFlags f := by
  cases k <;> rfl

theorem State.accumulate_setFlags (s : State) (f : Flags) (k : AccSel) (r : AccResult) :
    (s.setFlags f).accumulate k r = (s.accumulate k r).setFlags (f.stickAov r.ovf) := by
  cases k <;> rfl

@[simp] theorem State.setFlags_setFlags (s : State) (f g : Flags) :
    (s.setFlags f).setFlags g = s.setFlags g := rfl

theorem State.setReg_setFlags (s : State) (f : Flags) (r : Reg) (v : Element) :
    (s.setFlags f).setReg r v = (s.setReg r v).setFlags f := rfl

theorem State.raiseFault_setFlags (s : State) (f : Flags) (c : Cause) (w : Word) :
    (s.setFlags f).raiseFault c w = (s.raiseFault c w).setFlags f := rfl

@[simp] theorem State.setFlags_loadImage (s : State) (f : Flags) (addr : Nat) :
    (s.setFlags f).loadImage addr = s.loadImage addr := rfl

@[simp] theorem State.setFlags_word (s : State) (f : Flags) (r : Reg) (i : Nat) :
    (s.setFlags f).word r i = s.word r i := rfl

/-- A command started with other flags ends in the same state, but for the flags it makes of those. A
command with a test makes the flags of the branch it takes, and no test reads a flag. -/
theorem exec_setFlags (i : Instr) (s : State) (f : Flags) :
    exec i (s.setFlags f) = mapNext (·.setFlags (flagsAfter s i f)) (exec i s) := by
  cases i with
  | nop | setone | cpy | fred | canon | cmpeq | clrflg | mulnadd3 | muln2 => rfl
  | isovf rd => simp [exec, execIsovf, flagsAfter]
  | mul | sqr | sqnmul => exact congrArg _ (s.finishField_setFlags f _ _ _)
  | clracc t => exact congrArg _ (s.setAccum_setFlags f t _)
  | inv | div =>
    simp only [exec, execInv, execDiv, mapNext_ite, mapNext_next, flagsAfter,
      ← State.finishField_setFlags]
    rfl
  | ld | st => simp only [exec, execLd, execSt, mapNext_ite]; rfl
  | ldc rd addr =>
    by_cases hf : s.imageFits addr
    · by_cases ho : isOverflow (s.loadImage addr) <;>
        simp [exec, execLdc, flagsAfter, hf, ho, State.setReg_setFlags]
    · simp [exec, execLdc, flagsAfter, hf, State.raiseFault_setFlags]
  | mul2 t ra ia rb ib =>
    simp only [exec, execMul2, mapNext_ite, mapNext_next, flagsAfter, ← State.setAccum_setFlags]
    rfl
  | muladd3 t ra ia rb ib =>
    by_cases hi : s.indexOk ia ∧ s.indexOk ib <;>
      simp [exec, execMuladd3, flagsAfter, hi, State.accumulate_setFlags,
        State.raiseFault_setFlags]
  | muldbladd3 t ra ia rb ib =>
    by_cases hi : s.indexOk ia ∧ s.indexOk ib <;>
      simp [exec, execMuldbladd3, flagsAfter, hi, State.accumulate_setFlags,
        State.raiseFault_setFlags]
  | extract3 | addnextract2 =>
    simp only [exec, execExtract3, execAddnextract2, mapNext_ite, mapNext_next, flagsAfter,
      ← State.extract_setFlags]
    rfl

/-- The flags after a command are what it makes of the flags before. -/
theorem flags_of_exec {i : Instr} {s t : State} (h : exec i s = .next t) :
    t.flags = flagsAfter s i s.flags := by
  have hself : t = t.setFlags (flagsAfter s i s.flags) := by
    have hcomm := exec_setFlags i s s.flags
    rw [State.setFlags_self, h, mapNext_next] at hcomm
    exact Host.Outcome.next.inj hcomm
  rw [hself, State.setFlags_flags]

/-- Who writes which flag (R26): no flag, or `OV` by `ISOVF` or `LDC`, or `EQ` by `CMPEQ`, or the sticky
`AOV` by a command whose exact result may not fit. -/
theorem flagsAfter_cases (s : State) {i : Instr} (hi : i ≠ .clrflg) (f : Flags) :
    flagsAfter s i f = f ∨
      (∃ v, flagsAfter s i f = f.withOv v ∧ ((∃ r, i = .isovf r) ∨ ∃ r addr, i = .ldc r addr)) ∨
      (∃ v, flagsAfter s i f = f.withEq v ∧ ∃ r q, i = .cmpeq r q) ∨
      ∃ v, flagsAfter s i f = f.stickAov v ∧ mayLoseBits i = true := by
  cases i with
  | clrflg => exact absurd rfl hi
  | isovf rd => exact .inr (.inl ⟨_, rfl, .inl ⟨rd, rfl⟩⟩)
  | ldc rd addr =>
    by_cases hfit : s.imageFits addr
    · exact .inr (.inl ⟨_, if_pos hfit, .inr ⟨rd, addr, rfl⟩⟩)
    · exact .inl (if_neg hfit)
  | cmpeq rd rs => exact .inr (.inr (.inl ⟨_, rfl, rd, rs, rfl⟩))
  | muladd3 t ra ia rb ib | muldbladd3 t ra ia rb ib =>
    by_cases hok : s.indexOk ia ∧ s.indexOk ib
    · exact .inr (.inr (.inr ⟨_, if_pos hok, rfl⟩))
    · exact .inl (if_neg hok)
  | mulnadd3 | muln2 => exact .inr (.inr (.inr ⟨_, rfl, rfl⟩))
  | nop | setone | cpy | fred | canon | mul | sqr | inv | div | sqnmul | ld | st | clracc | mul2
  | extract3 | addnextract2 => exact .inl rfl

/-- Settles O58: the first four clauses by who writes which flag, the last by the commutation. -/
theorem flagsAreWrittenOnlyByTheirCommands : Obligations.FlagsAreWrittenOnlyByTheirCommands := by
  intro i s t h hi
  have hindep : ∀ f, ∃ g, exec i { s with flags := f } = .next { t with flags := g } := fun f =>
    ⟨flagsAfter s i f, (exec_setFlags i s f).trans (by rw [h, mapNext_next]; rfl)⟩
  rw [flags_of_exec h]
  rcases flagsAfter_cases s hi s.flags with e | ⟨v, e, hov⟩ | ⟨v, e, r, q, rfl⟩ | ⟨v, e, hlose⟩ <;>
    rw [e]
  · exact ⟨fun _ => rfl, id, fun _ _ => rfl, fun _ => rfl, hindep⟩
  · refine ⟨fun _ => rfl, id, fun hisovf hldc => ?_, fun _ => rfl, hindep⟩
    rcases hov with ⟨r, rfl⟩ | ⟨r, addr, rfl⟩
    · exact absurd rfl (hisovf r)
    · exact absurd rfl (hldc r addr)
  · exact ⟨fun _ => rfl, id, fun _ _ => rfl, fun hne => absurd rfl (hne r q), hindep⟩
  · refine ⟨fun hkeep => ?_, fun haov => ?_, fun _ _ => rfl, fun _ => rfl, hindep⟩
    · rw [hlose] at hkeep; cases hkeep
    · simp [haov]

end Sys2Proof.Machine
end

section
/-! PROOFS of the family 10_state.md, canonical results: no assertion of the field arithmetic fails, and
what it yields is below `p` (R23, R123, R149). -/

namespace Sys2Proof.Machine

/-- The computation fails no assertion, and its value is below `p`. -/
def YieldsCanonical (result : Option Element) : Prop := ∃ v, result = some v ∧ v.toNat < modulus

theorem one_lt_modulus : 1 < modulus := by
  have h1 := modulus_add_primeDiff
  have h2 := primeDiff_lt
  have h3 := size_large
  omega

theorem canonical_lt (x : Element) : (canonical x).toNat < modulus := by
  rw [canonical_toNat]; exact Nat.mod_lt _ modulus_pos

theorem mulFold_yieldsCanonical (a b : Element) : YieldsCanonical (mulFold a b) :=
  ⟨mulP a b, mulFold_eq a b, by rw [mulP_toNat]; exact Nat.mod_lt _ modulus_pos⟩

theorem squarings_isSome (k : Nat) (r : Element) : ∃ q, squarings k r = some q := by
  induction k generalizing r with
  | zero => exact ⟨r, rfl⟩
  | succ k ih => rw [squarings, sqrFold_eq]; exact ih _

/-- `SqnMul` ends in a multiplication, so its value is canonical even for a count of 0. -/
theorem sqnMul_yieldsCanonical (r : Element) (k : Nat) (m : Element) :
    YieldsCanonical (sqnMul r k m) := by
  obtain ⟨q, hq⟩ := squarings_isSome k r
  rw [sqnMul, hq]
  exact mulFold_yieldsCanonical q m

theorem powersFrom_isSome (n i : Nat) (q : Element) : ∃ l, powersFrom n i q = some l := by
  induction n generalizing i q with
  | zero => exact ⟨[q], rfl⟩
  | succ n ih =>
    obtain ⟨q', hq, _⟩ := sqnMul_yieldsCanonical q (2 ^ i) q
    obtain ⟨l, hl⟩ := ih (i + 1) q'
    exact ⟨q :: l, by rw [powersFrom, hq]; simp only [hl]⟩

/-- A chain of at least one step ends in a `SqnMul`, whatever it starts from. -/
theorem runChain_yieldsCanonical (powers : List Element) (c : Nat × Nat) (rest : List (Nat × Nat))
    (x : Element) : YieldsCanonical (runChain powers (c :: rest) x) := by
  obtain ⟨y, hy, hlt⟩ := sqnMul_yieldsCanonical x c.1 (powers.getD c.2 0)
  rw [runChain, hy]
  cases rest with
  | nil => exact ⟨y, rfl, hlt⟩
  | cons d rest => exact runChain_yieldsCanonical powers d rest y

theorem getInverse_yieldsCanonical (x : Element) : YieldsCanonical (getInverse x) := by
  obtain ⟨l, hl⟩ := powersFrom_isSome 11 0 x
  rw [getInverse, powersTable, hl]
  exact runChain_yieldsCanonical l _ _ _

theorem divide_yieldsCanonical (x y : Element) : YieldsCanonical (divide x y) := by
  obtain ⟨z, hz, _⟩ := getInverse_yieldsCanonical (canonical y)
  obtain ⟨q, hq, _⟩ := mulFold_yieldsCanonical (canonical x) z
  exact ⟨canonical q, by rw [divide, hz]; simp only [hq], canonical_lt q⟩

/-- Register `rd` holds a canonical value (R23). -/
def CanonicalAt (rd : Reg) (s : State) : Prop := (s.reg rd).toNat < modulus

theorem State.setReg_canonicalAt (s : State) (rd : Reg) {v : Element} (h : v.toNat < modulus) :
    CanonicalAt rd (s.setReg rd v) := by
  rw [CanonicalAt, State.setReg_reg_self]; exact h

theorem State.drawCanonical_canonicalAt (s : State) (rd : Reg) : CanonicalAt rd (s.drawCanonical rd) :=
  s.setReg_canonicalAt rd (canonical_lt _)

theorem State.finishField_canonicalAt (s : State) (rd : Reg) (w : Word) {result : Option Element}
    (h : YieldsCanonical result) : CanonicalAt rd (s.finishField rd w result) := by
  obtain ⟨v, rfl, hlt⟩ := h
  exact s.setReg_canonicalAt rd hlt

/-- The commands of the table of R23 but `LDC`, an inverse or division by zero included. -/
theorem exec_canonicalAt {i : Instr} {rd : Reg} (hi : canonicalDest i = some rd) (s : State) :
    OnNext (CanonicalAt rd) (exec i s) := by
  cases i with
  | setone rd =>
    cases hi
    have hone : (1 : Element).toNat = 1 := BitVec.toNat_one (by decide)
    exact .next (s.setReg_canonicalAt rd (hone ▸ one_lt_modulus))
  | canon rd => cases hi; exact .next (s.setReg_canonicalAt rd (canonical_lt _))
  | mul rd | sqr rd =>
    cases hi; exact .next (s.finishField_canonicalAt rd _ (mulFold_yieldsCanonical _ _))
  | sqnmul rd rs k =>
    cases hi; exact .next (s.finishField_canonicalAt rd _ (sqnMul_yieldsCanonical _ _ _))
  | inv rd rs =>
    cases hi
    exact .ite (fun _ => .next (s.drawCanonical_canonicalAt rd))
      (fun _ => .next (s.finishField_canonicalAt rd _ (getInverse_yieldsCanonical _)))
  | div rd rs =>
    cases hi
    exact .ite (fun _ => .next (s.drawCanonical_canonicalAt rd))
      (fun _ => .next (s.finishField_canonicalAt rd _ (divide_yieldsCanonical _ _)))
  | nop | cpy | isovf | fred | cmpeq | clrflg | ld | ldc | st | clracc | mul2 | muladd3 | muldbladd3
  | mulnadd3 | muln2 | extract3 | addnextract2 => cases hi

/-- Settles O59. -/
theorem arithmeticResultsAreCanonical : Obligations.ArithmeticResultsAreCanonical :=
  fun _ _ s t hi h => exec_canonicalAt hi s t h

end Sys2Proof.Machine
end

section
/-! PROOFS of the family 20_memory.md, the element image: an element is its 384 bytes (R44), and a limb
is a run of them (R45). -/

namespace Sys2Proof.Machine

/-! ### An element and its bytes (R44) -/

/-- Two elements with the same 384 bytes are the same: bit `b` is bit `b mod 8` of byte `b / 8`. -/
theorem element_ext {v u : Element}
    (h : ∀ k, k < 384 → v.extractLsb' (8 * k) 8 = u.extractLsb' (8 * k) 8) : v = u := by
  refine BitVec.eq_of_getLsbD_eq fun b hb => ?_
  have hbit := congrArg (·.getLsbD (b % 8)) (h (b / 8) (by omega))
  simpa [BitVec.getLsbD_extractLsb', Nat.mod_lt, Nat.div_add_mod] using hbit

/-- Byte `k` of the value of an image is the image's byte `k`. -/
theorem elementOf_byte {bs : List Byte} (hlen : bs.length = 384) {k : Nat} (hk : k < bs.length) :
    (elementOf bs).extractLsb' (8 * k) 8 = bs[k] := by
  apply BitVec.eq_of_toNat_eq
  rw [element_byte_toNat, elementOf_toNat bs hlen, leValue_byte, List.getElem?_eq_getElem hk,
    Option.getD_some]

@[simp] theorem elementOf_imageOf (v : Element) : elementOf (imageOf v) = v :=
  element_ext fun k hk => by
    have hk' : k < (imageOf v).length := by rwa [imageOf_length]
    rw [elementOf_byte (imageOf_length v) hk', imageOf_getElem]

theorem imageOf_elementOf {bs : List Byte} (hlen : bs.length = 384) : imageOf (elementOf bs) = bs :=
  List.ext_getElem ((imageOf_length _).trans hlen.symm) fun k h hk => by
    rw [imageOf_getElem _ k h, elementOf_byte hlen hk]

/-- Settles O35. -/
theorem imageAndValueAreInverse : Obligations.ImageAndValueAreInverse :=
  ⟨fun v => ⟨imageOf_length v, elementOf_imageOf v, fun k h => by
      rw [imageOf_getElem v k h, element_byte_toNat]⟩,
    fun _ hlen => imageOf_elementOf hlen⟩

/-! ### A limb and its bytes (R45) -/

/-- The value of an image, as a number. -/
@[simp] theorem leValue_imageOf (v : Element) : leValue (imageOf v) = v.toNat := by
  rw [← elementOf_toNat _ (imageOf_length v), elementOf_imageOf]

/-- A limb is whole bytes at both widths (R7). -/
theorem eight_mul_bits_div (w : LimbWidth) : 8 * (w.bits / 8) = w.bits := by cases w <;> rfl

/-- The run of `W/8` image bytes from `(W/8)·i` on has the value of limb `i` (R45). -/
theorem leValue_limb_bytes (w : LimbWidth) (v : Element) (i : Nat) :
    leValue (((imageOf v).drop (w.bits / 8 * i)).take (w.bits / 8)) = limbNat w v i := by
  rw [leValue_take, leValue_drop, leValue_imageOf, ← Nat.mul_assoc, eight_mul_bits_div, limbNat]

/-- The even 32-bit limb is the low half of the 64-bit limb (R22). -/
theorem limbNat_w32_even (v : Element) (i : Nat) :
    limbNat .w32 v (2 * i) = limbNat .w64 v i % 2 ^ 32 := by
  simp only [limbNat, LimbWidth.bits]
  rw [show 32 * (2 * i) = 64 * i by ring, Nat.mod_mod_of_dvd _ (by decide)]

/-- The odd 32-bit limb is the high half of the 64-bit limb (R22). -/
theorem limbNat_w32_odd (v : Element) (i : Nat) :
    limbNat .w32 v (2 * i + 1) = limbNat .w64 v i / 2 ^ 32 := by
  simp only [limbNat, LimbWidth.bits]
  rw [show 32 * (2 * i + 1) = 64 * i + 32 by ring, Nat.pow_add, ← Nat.div_div_eq_div_mul,
    show 2 ^ 64 = 2 ^ 32 * 2 ^ 32 by decide, Nat.mod_mul_right_div_self]

/-- Settles O36. -/
theorem limbsAreRunsOfImageBytes : Obligations.LimbsAreRunsOfImageBytes :=
  fun w v i _ => ⟨leValue_limb_bytes w v i, limbNat_w32_even v i, limbNat_w32_odd v i⟩

end Sys2Proof.Machine
end

section
/-! PROOFS of the family 20_memory.md, who reaches operand memory: `LD`, `LDC` and `ST` alone (R42), and
none of them where the image is not inside it (R47, R178). -/

namespace Sys2Proof.Machine

/-! ### The range check (R47, R160) -/

/-- What `LD`, `LDC` and `ST` do outside operand memory: they take the fault and do nothing else. -/
theorem exec_of_image_outside {i : Instr} {rd : Reg} {addr : Nat} {s : State}
    (hi : i = .ld rd addr ∨ i = .ldc rd addr ∨ i = .st rd addr) (h : ¬ s.imageFits addr) :
    exec i s = .next (s.raiseFault .omemRange (encode i)) := by
  rcases hi with rfl | rfl | rfl <;> exact if_neg h

/-- Settles O41: the sum `addr + 384` is not cut to any width, so no address wraps around. -/
theorem imageOutsideMemoryRaisesOmemRange : Obligations.ImageOutsideMemoryRaisesOmemRange :=
  fun _ _ _ _ hout hi =>
    ⟨_, exec_of_image_outside hi (Nat.not_le.mpr hout), rfl, rfl, rfl, State.raiseFault_taken _ _ _⟩

/-! ### Independence of operand memory (R42) -/

/-- The same state with other operand memory. -/
def State.withOmem (s : State) (m : Memory) : State := { s with omem := m }

theorem State.finishField_withOmem (s : State) (m : Memory) (rd : Reg) (w : Word)
    (result : Option Element) :
    (s.withOmem m).finishField rd w result = (s.finishField rd w result).withOmem m := by
  cases result <;> rfl

theorem State.setAccum_withOmem (s : State) (m : Memory) (k : AccSel) (a : Acc) :
    (s.withOmem m).setAccum k a = (s.setAccum k a).withOmem m := by
  cases k <;> rfl

theorem State.accum_withOmem (s : State) (m : Memory) (k : AccSel) :
    (s.withOmem m).accum k = s.accum k := by
  cases k <;> rfl

theorem State.accumulate_withOmem (s : State) (m : Memory) (k : AccSel) (r : AccResult) :
    (s.withOmem m).accumulate k r = (s.accumulate k r).withOmem m := by
  cases k <;> rfl

theorem State.extract_withOmem (s : State) (m : Memory) (k : AccSel) (r : Reg) (i : Nat)
    (x : Extracted) : (s.withOmem m).extract k r i x = (s.extract k r i x).withOmem m := by
  cases k <;> rfl

/-- A command other than `LD`, `LDC` and `ST` commutes with a change of operand memory: no operand and
no test of one reads it, and no update of one writes it. -/
theorem exec_withOmem {i : Instr} (hi : reachesMemory i = false) (s : State) (m : Memory) :
    exec i (s.withOmem m) = mapNext (·.withOmem m) (exec i s) := by
  cases i with
  | nop | setone | cpy | isovf | fred | canon | cmpeq | clrflg | mulnadd3 | muln2 => rfl
  | mul | sqr | sqnmul => exact congrArg _ (s.finishField_withOmem m _ _ _)
  | clracc t => exact congrArg _ (s.setAccum_withOmem m t _)
  | inv | div =>
    simp only [exec, execInv, execDiv, mapNext_ite, mapNext_next, ← State.finishField_withOmem]
    rfl
  | mul2 =>
    simp only [exec, execMul2, mapNext_ite, mapNext_next, ← State.setAccum_withOmem]
    rfl
  | muladd3 | muldbladd3 =>
    simp only [exec, execMuladd3, execMuldbladd3, mapNext_ite, mapNext_next,
      ← State.accumulate_withOmem, State.accum_withOmem]
    rfl
  | extract3 | addnextract2 =>
    simp only [exec, execExtract3, execAddnextract2, mapNext_ite, mapNext_next,
      ← State.extract_withOmem, State.accum_withOmem]
    rfl
  | ld | ldc | st => cases hi

/-- With the operand memory of `s` itself, the commutation says that it was not written. -/
theorem omem_of_exec {i : Instr} {s t : State} (hi : reachesMemory i = false)
    (h : exec i s = .next t) : t.omem = s.omem := by
  have hself : exec i s = .next (t.withOmem s.omem) := by
    have hcomm := exec_withOmem hi s s.omem
    rwa [h, mapNext_next] at hcomm
  rw [Host.Outcome.next.inj (h.symm.trans hself)]
  rfl

/-- A command other than `ST` does not write operand memory: `LD` and `LDC`, which read it, end in a
register write, a flag write or the fault. -/
theorem exec_keeps_omem {i : Instr} (hi : ∀ rd addr, i ≠ .st rd addr) (s : State) :
    OnNext (·.omem = s.omem) (exec i s) := by
  cases i with
  | st rd addr => exact absurd rfl (hi rd addr)
  | ld => exact .ite (fun _ => .next rfl) (fun _ => .next rfl)
  | ldc =>
    exact .ite (fun _ => .ite (fun _ => .next rfl) (fun _ => .next rfl)) (fun _ => .next rfl)
  | _ => exact fun _ h => omem_of_exec rfl h

/-- Settles O57. -/
theorem onlyThreeCommandsReachMemory : Obligations.OnlyThreeCommandsReachMemory := by
  intro i s t m h
  refine ⟨fun hi => ⟨omem_of_exec hi h, ?_⟩, fun hi => exec_keeps_omem hi s t h⟩
  calc exec i (s.withOmem m) = mapNext (·.withOmem m) (exec i s) := exec_withOmem hi s m
    _ = .next (t.withOmem m) := by rw [h, mapNext_next]

end Sys2Proof.Machine
end

section
/-! PROOFS of the family 30_encoding.md, the opcode map: one row matches a word and the word decodes to its
command (R66); a word matches a row iff it is a word of the row's format with any value in the fields
the row uses and zero in the others (R61 to R63, R65); what a row builds. -/

namespace Sys2Proof

/-! ### The row a word matches (R66, R67) -/

/-- The rows are disjoint (R66): a word has one opcode, and the rows' opcodes differ. -/
theorem Row.eq_of_matches {r q : Row} {w : Word} (hr : r ∈ rows) (hq : q ∈ rows)
    (hrw : r.matches w = true) (hqw : q.matches w = true) : r = q := by
  have hnodup : (rows.map (·.value.extractLsb' 24 8)).Nodup := List.pairwise_map.mpr rows_ops.2
  exact List.inj_on_of_nodup_map hnodup hr hq
    ((Row.matches_op hr hrw).symm.trans (Row.matches_op hq hqw))

theorem decode_eq_ok_iff {w : Word} {i : Instr} :
    decode w = .ok i ↔ ∃ r ∈ rows, r.matches w = true ∧ r.build w = i := by
  unfold decode
  constructor
  · intro h
    split at h
    next r hfind =>
      exact ⟨r, List.mem_of_find?_eq_some hfind, List.find?_some (p := fun r => Row.matches r w) hfind,
        Except.ok.inj h⟩
    next => cases h
  · rintro ⟨r, hr, hrw, rfl⟩
    split
    next q hfind =>
      rw [Row.eq_of_matches hr (List.mem_of_find?_eq_some hfind) hrw
        (List.find?_some (p := fun r => Row.matches r w) hfind)]
    next hnone => exact absurd hrw (List.find?_eq_none.mp hnone r hr)

theorem decode_of_no_row {w : Word} (h : ∀ r ∈ rows, r.matches w = false) :
    decode w = .error (.illegalCommand w) := by
  have hnone : rows.find? (·.matches w) = none := by simpa using h
  rw [decode, hnone]

/-! ### The words of a row, by its format (R61 to R63) -/

theorem exists_eq_append {n m : Nat} (w : BitVec (n + m)) :
    ∃ (a : BitVec n) (b : BitVec m), w = a ++ b :=
  ⟨_, _, BitVec.extractLsb'_append_extractLsb'.symm⟩

theorem bitVec_append_inj {n m : Nat} {a c : BitVec n} {b d : BitVec m} (h : a ++ b = c ++ d) :
    a = c ∧ b = d := by
  have hbd : b = d := by simpa [BitVec.setWidth_append] using congrArg (BitVec.setWidth m) h
  subst hbd
  exact ⟨(BitVec.append_left_inj b).mp h, rfl⟩

/-- The opcode of a row (R65): the top byte of its match. -/
def Row.op (r : Row) : BitVec 8 := r.value.extractLsb' 24 8

/-- Below the opcode a row's match is zero: the mask bits a row sets there demand zeros (R65). -/
theorem Row.value_eq {r : Row} (hr : r ∈ rows) : r.value = r.op ++ 0#24 := by
  revert r
  decide

theorem wordR_zero (op : BitVec 8) : wordR op 0 0 0 = op ++ 0#24 := by
  unfold wordR; bv_normalize

theorem wordM_zero (op : BitVec 8) : wordM op 0 0 = op ++ 0#24 := by
  unfold wordM; bv_normalize

theorem wordL_zero (op : BitVec 8) : wordL op 0 0 0 0 0 = op ++ 0#24 := by
  unfold wordL; bv_normalize

section Formats

variable {r : Row} {op : BitVec 8} {w : Word}

/-- The words of a row of format R, given the mask bits of its `rd`, `rs` and `k` fields. -/
theorem Row.matches_formatR {a b : BitVec 3} {d : BitVec 12}
    (hmask : r.mask = 0xFF#8 ++ a ++ b ++ BitVec.allOnes 6 ++ d) (hvalue : r.value = op ++ 0#24) :
    r.matches w = true ↔
      ∃ rd rs k, w = wordR op rd rs k ∧ rd &&& a = 0 ∧ rs &&& b = 0 ∧ k &&& d = 0 := by
  rw [Row.matches, beq_iff_eq, hmask, hvalue, ← wordR_zero]
  constructor
  · intro h
    obtain ⟨v, k, rfl⟩ := exists_eq_append (n := 8 + 3 + 3 + 6) (m := 12) w
    obtain ⟨v, c, rfl⟩ := exists_eq_append (n := 8 + 3 + 3) (m := 6) v
    obtain ⟨v, rs, rfl⟩ := exists_eq_append (n := 8 + 3) (m := 3) v
    obtain ⟨o, rd, rfl⟩ := exists_eq_append (n := 8) (m := 3) v
    rw [BitVec.and_append, BitVec.and_append, BitVec.and_append, BitVec.and_append, and_opcodeMask,
      BitVec.and_allOnes] at h
    obtain ⟨hc, hk⟩ := bitVec_append_inj h
    obtain ⟨hs, rfl⟩ := bitVec_append_inj hc
    obtain ⟨hd, hrs⟩ := bitVec_append_inj hs
    obtain ⟨rfl, hrd⟩ := bitVec_append_inj hd
    exact ⟨rd, rs, k, rfl, hrd, hrs, hk⟩
  · rintro ⟨rd, rs, k, rfl, hrd, hrs, hk⟩
    rw [wordR_and, hrd, hrs, hk]

/-- The words of a row of format M, given the mask bits of its `rd` and `addr` fields. -/
theorem Row.matches_formatM {a : BitVec 3} {d : BitVec 16}
    (hmask : r.mask = 0xFF#8 ++ a ++ BitVec.allOnes 5 ++ d) (hvalue : r.value = op ++ 0#24) :
    r.matches w = true ↔ ∃ rd addr, w = wordM op rd addr ∧ rd &&& a = 0 ∧ addr &&& d = 0 := by
  rw [Row.matches, beq_iff_eq, hmask, hvalue, ← wordM_zero]
  constructor
  · intro h
    obtain ⟨v, addr, rfl⟩ := exists_eq_append (n := 8 + 3 + 5) (m := 16) w
    obtain ⟨v, c, rfl⟩ := exists_eq_append (n := 8 + 3) (m := 5) v
    obtain ⟨o, rd, rfl⟩ := exists_eq_append (n := 8) (m := 3) v
    rw [BitVec.and_append, BitVec.and_append, BitVec.and_append, and_opcodeMask,
      BitVec.and_allOnes] at h
    obtain ⟨hc, haddr⟩ := bitVec_append_inj h
    obtain ⟨hd, rfl⟩ := bitVec_append_inj hc
    obtain ⟨rfl, hrd⟩ := bitVec_append_inj hd
    exact ⟨rd, addr, rfl, hrd, haddr⟩
  · rintro ⟨rd, addr, rfl, hrd, haddr⟩
    rw [wordM_and, hrd, haddr]

/-- The words of a row of format L, given the mask bits of its `t`, `ra`, `ia`, `rb` and `ib` fields. -/
theorem Row.matches_formatL {a : BitVec 1} {b d : BitVec 3} {c e : BitVec 7}
    (hmask : r.mask = 0xFF#8 ++ a ++ b ++ c ++ d ++ e ++ BitVec.allOnes 3)
    (hvalue : r.value = op ++ 0#24) :
    r.matches w = true ↔ ∃ t ra ia rb ib, w = wordL op t ra ia rb ib ∧
      t &&& a = 0 ∧ ra &&& b = 0 ∧ ia &&& c = 0 ∧ rb &&& d = 0 ∧ ib &&& e = 0 := by
  rw [Row.matches, beq_iff_eq, hmask, hvalue, ← wordL_zero]
  constructor
  · intro h
    obtain ⟨v, z, rfl⟩ := exists_eq_append (n := 8 + 1 + 3 + 7 + 3 + 7) (m := 3) w
    obtain ⟨v, ib, rfl⟩ := exists_eq_append (n := 8 + 1 + 3 + 7 + 3) (m := 7) v
    obtain ⟨v, rb, rfl⟩ := exists_eq_append (n := 8 + 1 + 3 + 7) (m := 3) v
    obtain ⟨v, ia, rfl⟩ := exists_eq_append (n := 8 + 1 + 3) (m := 7) v
    obtain ⟨v, ra, rfl⟩ := exists_eq_append (n := 8 + 1) (m := 3) v
    obtain ⟨o, t, rfl⟩ := exists_eq_append (n := 8) (m := 1) v
    rw [BitVec.and_append, BitVec.and_append, BitVec.and_append, BitVec.and_append,
      BitVec.and_append, BitVec.and_append, and_opcodeMask, BitVec.and_allOnes] at h
    obtain ⟨hz, rfl⟩ := bitVec_append_inj h
    obtain ⟨hj, hib⟩ := bitVec_append_inj hz
    obtain ⟨hb, hrb⟩ := bitVec_append_inj hj
    obtain ⟨hi, hia⟩ := bitVec_append_inj hb
    obtain ⟨ha, hra⟩ := bitVec_append_inj hi
    obtain ⟨rfl, ht⟩ := bitVec_append_inj ha
    exact ⟨t, ra, ia, rb, ib, rfl, ht, hra, hia, hrb, hib⟩
  · rintro ⟨t, ra, ia, rb, ib, rfl, ht, hra, hia, hrb, hib⟩
    rw [wordL_and, ht, hra, hia, hrb, hib]

/-! ### The words of a row, by the fields it uses (R65)

A mask of the opcode map is all zeros on a field the row uses and all ones on every other, so a row's
words are those of its format with its opcode, anything in the fields used, and zero elsewhere. -/

theorem Row.matches_none (hmask : r.mask = BitVec.allOnes 32) :
    r.matches w = true ↔ w = r.value := by
  rw [Row.matches, beq_iff_eq, hmask, BitVec.and_allOnes]

theorem Row.matches_rd (hmask : r.mask = 0xFF1FFFFF#32) (hvalue : r.value = op ++ 0#24) :
    r.matches w = true ↔ ∃ rd, w = wordR op rd 0 0 := by
  simpa [-BitVec.reduceAllOnes] using Row.matches_formatR (a := 0) (b := BitVec.allOnes 3)
    (d := BitVec.allOnes 12) hmask hvalue

theorem Row.matches_rd_rs (hmask : r.mask = 0xFF03FFFF#32) (hvalue : r.value = op ++ 0#24) :
    r.matches w = true ↔ ∃ rd rs, w = wordR op rd rs 0 := by
  simpa [-BitVec.reduceAllOnes] using Row.matches_formatR (a := 0) (b := 0)
    (d := BitVec.allOnes 12) hmask hvalue

theorem Row.matches_rd_rs_k (hmask : r.mask = 0xFF03F000#32) (hvalue : r.value = op ++ 0#24) :
    r.matches w = true ↔ ∃ rd rs k, w = wordR op rd rs k := by
  simpa [-BitVec.reduceAllOnes] using Row.matches_formatR (a := 0) (b := 0) (d := 0) hmask hvalue

theorem Row.matches_rd_addr (hmask : r.mask = 0xFF1F0000#32) (hvalue : r.value = op ++ 0#24) :
    r.matches w = true ↔ ∃ rd addr, w = wordM op rd addr := by
  simpa [-BitVec.reduceAllOnes] using Row.matches_formatM (a := 0) (d := 0) hmask hvalue

theorem Row.matches_t (hmask : r.mask = 0xFF7FFFFF#32) (hvalue : r.value = op ++ 0#24) :
    r.matches w = true ↔ ∃ t, w = wordL op t 0 0 0 0 := by
  simpa [-BitVec.reduceAllOnes] using Row.matches_formatL (a := 0) (b := BitVec.allOnes 3)
    (c := BitVec.allOnes 7) (d := BitVec.allOnes 3) (e := BitVec.allOnes 7) hmask hvalue

theorem Row.matches_t_ra_ia (hmask : r.mask = 0xFF001FFF#32) (hvalue : r.value = op ++ 0#24) :
    r.matches w = true ↔ ∃ t ra ia, w = wordL op t ra ia 0 0 := by
  simpa [-BitVec.reduceAllOnes] using Row.matches_formatL (a := 0) (b := 0) (c := 0)
    (d := BitVec.allOnes 3) (e := BitVec.allOnes 7) hmask hvalue

theorem Row.matches_ra_ia_rb_ib (hmask : r.mask = 0xFF800007#32) (hvalue : r.value = op ++ 0#24) :
    r.matches w = true ↔ ∃ ra ia rb ib, w = wordL op 0 ra ia rb ib := by
  simpa [-BitVec.reduceAllOnes] using Row.matches_formatL (a := BitVec.allOnes 1) (b := 0)
    (c := 0) (d := 0) (e := 0) hmask hvalue

theorem Row.matches_t_ra_ia_rb_ib (hmask : r.mask = 0xFF000007#32) (hvalue : r.value = op ++ 0#24) :
    r.matches w = true ↔ ∃ t ra ia rb ib, w = wordL op t ra ia rb ib := by
  simpa [-BitVec.reduceAllOnes] using Row.matches_formatL (a := 0) (b := 0) (c := 0)
    (d := 0) (e := 0) hmask hvalue

end Formats

/-! ### The row of a command -/

/-- The row of the opcode map that a command belongs to: `Instr` has one constructor for each row, in the
order of the rows. -/
def Instr.row (i : Instr) : Row := rows[i.ctorIdx]'(by cases i <;> exact of_decide_eq_true rfl)

theorem Instr.row_mem (i : Instr) : i.row ∈ rows := List.getElem_mem _

theorem Instr.row_value (i : Instr) : i.row.value = i.row.op ++ 0#24 := Row.value_eq i.row_mem

theorem Instr.row_mnemonic (i : Instr) : i.row.mnemonic = i.mnemonic := by cases i <;> rfl

/-- A row builds commands of that row only. -/
theorem Row.row_build : ∀ r ∈ rows, ∀ w, (r.build w).row = r := by
  simp [rows, rowsElement, rowsField, rowsMemory, rowsLimb, Instr.row, Instr.ctorIdx]

theorem Instr.row_matches_encode (i : Instr) : i.row.matches (encode i) = true := by
  cases i with
  | nop | clrflg | mulnadd3 | muln2 => exact (Row.matches_none rfl).2 rfl
  | setone | isovf | fred | canon | sqr => exact (Row.matches_rd rfl rfl).2 ⟨_, rfl⟩
  | cpy | cmpeq | mul | inv | div => exact (Row.matches_rd_rs rfl rfl).2 ⟨_, _, rfl⟩
  | sqnmul => exact (Row.matches_rd_rs_k rfl rfl).2 ⟨_, _, _, rfl⟩
  | ld | ldc | st => exact (Row.matches_rd_addr rfl rfl).2 ⟨_, _, rfl⟩
  | clracc => exact (Row.matches_t rfl rfl).2 ⟨_, rfl⟩
  | mul2 | muladd3 | muldbladd3 =>
    exact (Row.matches_t_ra_ia_rb_ib rfl rfl).2 ⟨_, _, _, _, _, rfl⟩
  | extract3 => exact (Row.matches_t_ra_ia rfl rfl).2 ⟨_, _, _, rfl⟩
  | addnextract2 => exact (Row.matches_ra_ia_rb_ib rfl rfl).2 ⟨_, _, _, _, rfl⟩

/-- The fields of a command's word are its operands: a number that fits its field is not cut. -/
theorem Instr.row_build_encode {i : Instr} (h : i.wf = true) : i.row.build (encode i) = i := by
  cases i with
  | nop | clrflg | mulnadd3 | muln2 => rfl
  | setone | isovf | fred | canon | sqr | cpy | cmpeq | mul | inv | div | clracc =>
    simp [Instr.row, Instr.ctorIdx, rows, rowsElement, rowsField, rowsMemory, rowsLimb, encode]
  | sqnmul rd rs k =>
    have hk : k < 4096 := Nat.lt_succ_of_le (of_decide_eq_true h)
    simpa [Instr.row, Instr.ctorIdx, rows, rowsElement, rowsField, encode] using hk
  | ld rd addr | ldc rd addr | st rd addr =>
    have haddr : addr < 65536 := of_decide_eq_true h
    simpa [Instr.row, Instr.ctorIdx, rows, rowsElement, rowsField, rowsMemory, encode] using haddr
  | extract3 t ra ia =>
    have hia : ia < 128 := of_decide_eq_true h
    simpa [Instr.row, Instr.ctorIdx, rows, rowsElement, rowsField, rowsMemory, rowsLimb, encode]
      using hia
  | mul2 _ _ ia _ ib | muladd3 _ _ ia _ ib | muldbladd3 _ _ ia _ ib | addnextract2 _ ia _ ib =>
    have hindices : ia < 128 ∧ ib < 128 := of_decide_eq_true h
    simpa [Instr.row, Instr.ctorIdx, rows, rowsElement, rowsField, rowsMemory, rowsLimb, encode]
      using hindices

/-- No bit of a word that matches the row is lost: each is the opcode's, a zero, or in a field the row
reads. -/
theorem Instr.encode_row_build (i : Instr) {w : Word} (h : i.row.matches w = true) :
    encode (i.row.build w) = w := by
  cases i with
  | nop | clrflg | mulnadd3 | muln2 =>
    rw [Row.matches_none rfl] at h
    rw [h]
    rfl
  | setone | isovf | fred | canon | sqr =>
    obtain ⟨rd, rfl⟩ := (Row.matches_rd rfl (Instr.row_value _)).1 h
    simp [Instr.row, Instr.ctorIdx, Row.op, rows, rowsElement, rowsField, encode]
  | cpy | cmpeq | mul | inv | div =>
    obtain ⟨rd, rs, rfl⟩ := (Row.matches_rd_rs rfl (Instr.row_value _)).1 h
    simp [Instr.row, Instr.ctorIdx, Row.op, rows, rowsElement, rowsField, encode]
  | sqnmul =>
    obtain ⟨rd, rs, k, rfl⟩ := (Row.matches_rd_rs_k rfl (Instr.row_value _)).1 h
    simp [Instr.row, Instr.ctorIdx, Row.op, rows, rowsElement, rowsField, encode]
  | ld | ldc | st =>
    obtain ⟨rd, addr, rfl⟩ := (Row.matches_rd_addr rfl (Instr.row_value _)).1 h
    simp [Instr.row, Instr.ctorIdx, Row.op, rows, rowsElement, rowsField, rowsMemory, encode]
  | clracc =>
    obtain ⟨t, rfl⟩ := (Row.matches_t rfl (Instr.row_value _)).1 h
    simp [Instr.row, Instr.ctorIdx, Row.op, rows, rowsElement, rowsField, rowsMemory, rowsLimb,
      encode]
  | mul2 | muladd3 | muldbladd3 =>
    obtain ⟨t, ra, ia, rb, ib, rfl⟩ := (Row.matches_t_ra_ia_rb_ib rfl (Instr.row_value _)).1 h
    simp [Instr.row, Instr.ctorIdx, Row.op, rows, rowsElement, rowsField, rowsMemory, rowsLimb,
      encode]
  | extract3 =>
    obtain ⟨t, ra, ia, rfl⟩ := (Row.matches_t_ra_ia rfl (Instr.row_value _)).1 h
    simp [Instr.row, Instr.ctorIdx, Row.op, rows, rowsElement, rowsField, rowsMemory, rowsLimb,
      encode]
  | addnextract2 =>
    obtain ⟨ra, ia, rb, ib, rfl⟩ := (Row.matches_ra_ia_rb_ib rfl (Instr.row_value _)).1 h
    simp [Instr.row, Instr.ctorIdx, Row.op, rows, rowsElement, rowsField, rowsMemory, rowsLimb,
      encode]

/-! ### The numbers a row builds fit their fields (R61 to R64) -/

theorem fieldK_le (w : Word) : fieldK w ≤ kmax := Nat.le_of_lt_succ (BitVec.isLt _)

theorem fieldAddr_lt (w : Word) : fieldAddr w < 65536 := BitVec.isLt _

theorem fieldIa_lt (w : Word) : fieldIa w < 128 := BitVec.isLt _

theorem fieldIb_lt (w : Word) : fieldIb w < 128 := BitVec.isLt _

theorem Row.wf_build : ∀ r ∈ rows, ∀ w, (r.build w).wf = true := by
  simp [rows, rowsElement, rowsField, rowsMemory, rowsLimb, Instr.wf, fieldK_le, fieldAddr_lt,
    fieldIa_lt, fieldIb_lt]

end Sys2Proof
end

section
/-! PROOFS of the family 30_encoding.md, the obligations: each an assembly of the facts about rows. -/

namespace Sys2Proof

/-- Settles O1: the word matches the command's row, and the row reads the operands back. -/
theorem decodeOfEncodeIsTheCommand : Obligations.DecodeOfEncodeIsTheCommand :=
  fun i h => decode_eq_ok_iff.mpr ⟨i.row, i.row_mem, i.row_matches_encode, Instr.row_build_encode h⟩

/-- Settles O2: a word that decodes matches a row, which is the row of the command it builds. -/
theorem encodeOfDecodeIsTheWord : Obligations.EncodeOfDecodeIsTheWord := by
  intro w i h
  obtain ⟨r, hr, hrw, rfl⟩ := decode_eq_ok_iff.mp h
  refine ⟨?_, Row.wf_build r hr w⟩
  have hencode := (r.build w).encode_row_build (w := w)
  rw [Row.row_build r hr w] at hencode
  exact hencode hrw

/-- Settles O3: the rows are disjoint, the row that matches is the one the decoder finds, and the command
it builds is of that row. -/
theorem decodingFollowsTheOpcodeMap : Obligations.DecodingFollowsTheOpcodeMap := by
  refine fun w => ⟨?_, ?_, decode_of_no_row⟩
  · intro r hr q hq hrw hqw
    rw [Row.eq_of_matches hr hq hrw hqw]
  · intro r hr hrw
    refine ⟨decode_eq_ok_iff.mpr ⟨r, hr, hrw, rfl⟩, ?_⟩
    rw [← Instr.row_mnemonic, Row.row_build r hr w]

/-- Settles O4: each legal word is the word of its command; each illegal one matches none of the rows. -/
theorem specWordsDecode : Obligations.SpecWordsDecode := by
  have hdecode := decodeOfEncodeIsTheCommand
  exact ⟨hdecode (.mul .e0 .e2) rfl, hdecode (.ld .e3 384) rfl,
    hdecode (.mul2 .dacc .e0 47 .e1 47) rfl, hdecode (.sqnmul .e7 .e7 4095) rfl,
    hdecode (.cmpeq .e7 .e5) rfl, hdecode (.addnextract2 .e2 4 .e0 0) rfl,
    decode_of_no_row (by decide), decode_of_no_row (by decide)⟩

end Sys2Proof

namespace Sys2Proof.Machine

/-- Settles O6: the word is rejected, and the fault record is all that its fault writes. -/
theorem illegalWordRaisesIllegalCommand : Obligations.IllegalWordRaisesIllegalCommand := by
  intro s w rest hscript hfault hnone
  have hclean : ({ s with script := rest } : State).fault = false := hfault
  refine ⟨_, ?_, rfl, rfl, rfl, State.raiseFault_taken _ _ _⟩
  rw [step_of_script hscript, hostAct_csrWrite_cmd, issue_of_reject hclean (decode_of_no_row hnone)]

end Sys2Proof.Machine
end

section
/-! PROOFS of the family 40_limbops.md. A limb-level command whose indices are below `LIMBS` makes one of
three updates: a whole accumulator (`setAccum`), a result that may lose bits (`accumulate`) or an
extraction (`extract`). Each obligation is that update's own law and the limb operation's own law. -/

namespace Sys2Proof.Machine

/-! ### The three updates -/

@[simp] theorem State.setAccum_setAccum (s : State) (k : AccSel) (a b : Acc) :
    (s.setAccum k a).setAccum k b = s.setAccum k b := by cases k <;> rfl

/-- A result that lost no bits leaves `AOV`, so accumulating it writes the accumulator alone (R83). -/
theorem State.accumulate_of_exact (s : State) (k : AccSel) (a : Acc) :
    s.accumulate k ⟨a, false⟩ = s.setAccum k a := by
  have hflags : s.flags.stickAov false = (s.setAccum k a).flags := by simp
  rw [State.accumulate_eq, hflags, State.setFlags_self]

/-- `AOV` is sticky (R83). -/
theorem State.accumulate_aov (s : State) (k : AccSel) (r : AccResult) :
    (s.accumulate k r).flags.aov = true ↔ s.flags.aov = true ∨ r.ovf = true := by
  simp [State.accumulate_eq]

@[simp] theorem State.extract_accum_self (s : State) (k : AccSel) (r : Reg) (i : Nat) (x : Extracted) :
    (s.extract k r i x).accum k = x.acc := by simp [State.extract_eq]

/-- A limb of `W` bits extracted reads back from the register as it was taken. -/
theorem State.limbNat_extract (s : State) (k : AccSel) (r : Reg) {i : Nat} {x : Extracted}
    (hi : s.indexOk i) (hx : x.out.toNat < 2 ^ s.cfg.width.bits) :
    limbNat s.cfg.width ((s.extract k r i x).reg r) i = x.out.toNat := by
  rw [State.extract_eq, State.setReg_reg_self, limbNat_setLimb_self _ _ _ hi, Nat.mod_eq_of_lt hx]

/-! ### A product loaded is a product added to 0 -/

/-- Writing the value of an accumulator of `W`-bit limbs gives that accumulator and loses no bits. -/
theorem put3_val3 {w : LimbWidth} {a : Acc} (h : a.Fits w) : put3 w (a.val3 w) = ⟨a, false⟩ := by
  simp [put3, Acc.ofVal3_val3 h, Acc.val3_lt h]

/-- `muladd3` on a cleared accumulator is `mul`, with no bits lost (R85). -/
theorem muladd3_zero {w : LimbWidth} {a b : Limb} (ha : a.toNat < 2 ^ w.bits) (hb : b.toNat < 2 ^ w.bits) :
    muladd3 w Acc.zero a b = ⟨mul2 w a b, false⟩ := by
  obtain ⟨hval2, hcarry, hfits⟩ := mul2_spec w ha hb
  have hval3 : Acc.zero.val3 w + a.toNat * b.toNat = (mul2 w a b).val3 w := by
    rw [← hval2, Acc.val2, Acc.val3, Acc.val3, hcarry]
    simp [Acc.zero]
  rw [muladd3, hval3, put3_val3 hfits]

/-! ### The commands, with every limb index below `LIMBS` -/

theorem State.word_lt (s : State) (r : Reg) (i : Nat) : (s.word r i).toNat < 2 ^ s.cfg.width.bits := by
  rw [State.word_toNat]; exact limbNat_lt _ _ _

/-- `LIMBS` is `3072 / W` (R8). -/
theorem State.indexOk_of_lt {s : State} {i : Nat} (h : i < 3072 / s.cfg.width.bits) : s.indexOk i := by
  rw [State.indexOk, limbs_eq]; exact h

section Indexed

variable {s : State} {ia ib : Nat} (k : AccSel) (ra rb : Reg)

theorem exec_mul2 (hia : s.indexOk ia) (hib : s.indexOk ib) :
    exec (.mul2 k ra ia rb ib) s =
      .next (s.setAccum k (mul2 s.cfg.width (s.word ra ia) (s.word rb ib))) :=
  if_pos ⟨hia, hib⟩

theorem exec_muladd3 (hia : s.indexOk ia) (hib : s.indexOk ib) :
    exec (.muladd3 k ra ia rb ib) s =
      .next (s.accumulate k (muladd3 s.cfg.width (s.accum k) (s.word ra ia) (s.word rb ib))) :=
  if_pos ⟨hia, hib⟩

theorem exec_muldbladd3 (hia : s.indexOk ia) (hib : s.indexOk ib) :
    exec (.muldbladd3 k ra ia rb ib) s =
      .next (s.accumulate k (muldbladd3 s.cfg.width (s.accum k) (s.word ra ia) (s.word rb ib))) :=
  if_pos ⟨hia, hib⟩

theorem exec_extract3 (hia : s.indexOk ia) :
    exec (.extract3 k ra ia) s = .next (s.extract k ra ia (extract3 (s.accum k))) :=
  if_pos hia

theorem exec_addnextract2 (hia : s.indexOk ia) (hib : s.indexOk ib) :
    exec (.addnextract2 ra ia rb ib) s =
      .next (s.extract .acc ra ia (addnextract2 s.cfg.width s.acc (s.word rb ib))) :=
  if_pos ⟨hia, hib⟩

/-- `MULADD3` right after `CLRACC` leaves what `MUL2` leaves: the operands are no part of what was
cleared, and the product alone fits (R85). -/
theorem exec_muladd3_of_cleared (hia : s.indexOk ia) (hib : s.indexOk ib) :
    exec (.muladd3 k ra ia rb ib) (s.setAccum k Acc.zero) =
      .next (s.setAccum k (mul2 s.cfg.width (s.word ra ia) (s.word rb ib))) := by
  have hword (r : Reg) (i : Nat) : (s.setAccum k Acc.zero).word r i = s.word r i := by simp [State.word]
  have hok {i : Nat} (hi : s.indexOk i) : (s.setAccum k Acc.zero).indexOk i := by simpa using hi
  rw [exec_muladd3 k ra rb (hok hia) (hok hib), State.setAccum_accum_self, State.setAccum_cfg, hword,
    hword, muladd3_zero (s.word_lt ra ia) (s.word_lt rb ib), State.accumulate_of_exact,
    State.setAccum_setAccum]

end Indexed

/-! ### The obligations -/

/-- Settles O42: the flags are no part of the update. -/
theorem clraccClearsTheAccumulator : Obligations.ClraccClearsTheAccumulator := by
  intro k s
  exact ⟨rfl, _, rfl, s.setAccum_accum_self k Acc.zero, s.setAccum_only k Acc.zero⟩

/-- Settles O43: the product of two limbs fits two limbs, so `mul` is exact, and `muladd3` onto 0 is too. -/
theorem mul2LoadsTheProduct : Obligations.Mul2LoadsTheProduct := by
  intro k ra ia rb ib s ha hb
  have hia := State.indexOk_of_lt ha
  have hib := State.indexOk_of_lt hb
  obtain ⟨hval, hcarry, hfits⟩ := mul2_spec s.cfg.width (s.word_lt ra ia) (s.word_lt rb ib)
  refine ⟨rfl, _, exec_mul2 k ra rb hia hib, ?_, ?_, ?_, s.setAccum_only k _,
    _, rfl, exec_muladd3_of_cleared k ra rb hia hib⟩
  · rw [State.setAccum_accum_self, ← State.word_toNat, ← State.word_toNat, ← hval, Acc.val2, mul_comm]
  · rw [State.setAccum_accum_self, hcarry]
  · rw [State.setAccum_accum_self]; exact hfits

/-- Settles O44: `MULADD3` accumulates the sum by a three-limb write. -/
theorem muladd3AddsTheProduct : Obligations.Muladd3AddsTheProduct := by
  intro k ra ia rb ib s v ha hb hv
  have hsum : muladd3 s.cfg.width (s.accum k) (s.word ra ia) (s.word rb ib) = put3 s.cfg.width v := by
    rw [hv, muladd3, State.word_toNat, State.word_toNat]
  refine ⟨rfl, _, exec_muladd3 k ra rb (State.indexOk_of_lt ha) (State.indexOk_of_lt hb), ?_⟩
  rw [hsum]
  exact s.accumulate_put3 k v

/-- Settles O45: as `MULADD3`, with the product doubled before it is added. -/
theorem muldbladd3AddsTwiceTheProduct : Obligations.Muldbladd3AddsTwiceTheProduct := by
  intro k ra ia rb ib s v ha hb hv
  have hsum : muldbladd3 s.cfg.width (s.accum k) (s.word ra ia) (s.word rb ib) = put3 s.cfg.width v := by
    rw [hv, muldbladd3, State.word_toNat, State.word_toNat, mul_assoc]
  refine ⟨rfl, _, exec_muldbladd3 k ra rb (State.indexOk_of_lt ha) (State.indexOk_of_lt hb), ?_⟩
  rw [hsum]
  exact s.accumulate_put3 k v

/-- Settles O46: the sum takes all three limbs of `ACC`, so `c2` is no special case. -/
theorem mulnadd3FoldsDaccIntoAcc : Obligations.Mulnadd3FoldsDaccIntoAcc := by
  rintro s v rfl
  exact ⟨by decide, _, rfl, s.accumulate_put3 .acc _⟩

/-- Settles O47: the two low limbs and the loss are those of `muln2`, which passes the carry limb on. -/
theorem muln2ScalesTheTwoLowLimbs : Obligations.Muln2ScalesTheTwoLowLimbs := by
  intro s v hv
  obtain ⟨hval, hlow, _, hcarry, hovf⟩ := muln2_spec s.cfg.width s.acc primeDiff
  have hprod : primeDiff * s.acc.val2 s.cfg.width = v := by
    rw [hv, Acc.val2, primeDiff]; ring
  rw [hprod] at hval hovf
  rw [Acc.val2, mul_comm (2 ^ s.cfg.width.bits)] at hval
  refine ⟨by decide, _, rfl, hval, hlow, hcarry, ?_, s.accumulate_only .acc _⟩
  rw [State.accumulate_aov, hovf]

/-- Settles O48: the limb taken has `W` bits in a well-formed state, so the register holds all of it. -/
theorem extract3TakesTheLowestLimb : Obligations.Extract3TakesTheLowestLimb := by
  intro k ra ia s hwf ha
  have hia := State.indexOk_of_lt ha
  obtain ⟨hout, hacc⟩ := extract3_spec (s.accum k)
  refine ⟨rfl, _, exec_extract3 k ra hia, ?_, ?_, s.extract_only k ra _ hia⟩
  · rw [s.limbNat_extract k ra hia (by rw [hout]; exact (hwf.accum k).low), hout]
  · rw [State.extract_accum_self, hacc]

/-- Settles O49: two `W`-bit limbs and a `W`-bit addend carry at most 1 out of `2W` bits. -/
theorem addnextract2AddsAndTakesTheLowestLimb : Obligations.Addnextract2AddsAndTakesTheLowestLimb := by
  intro ra ia rb ib s v hwf ha hb hv
  have hia := State.indexOk_of_lt ha
  obtain ⟨hout, hlow, hhigh, hle, hcarry⟩ :=
    addnextract2_spec s.cfg.width hwf.acc.low hwf.acc.high (s.word_lt rb ib)
  have hsum : s.acc.val2 s.cfg.width + (s.word rb ib).toNat = v := by
    rw [hv, Acc.val2, State.word_toNat, mul_comm]
  rw [hsum] at hout hlow hhigh
  refine ⟨rfl, _, exec_addnextract2 ra rb hia (State.indexOk_of_lt hb), ?_, hlow, hhigh, hle, hcarry,
    s.extract_only .acc ra _ hia⟩
  rw [s.limbNat_extract .acc ra hia (by rw [hout]; exact Nat.mod_lt _ (base_pos _)), hout]

end Sys2Proof.Machine
end

section
/-! PROOFS of the family 41_element_basic.md, the pure functions: `IsOverflow` limb by limb (R101), and what
`FullReduce` does on each side of the modulus (R102, R108). -/

namespace Sys2Proof.Machine

/-! ### Values within `PRIME_DIFF` of the top -/

/-- A number of `m + 1` digits to the base `B` is within `d ≤ B` of the top iff its lowest digit is within
`d` of `B` and the digits above hold their largest value: one less above costs a whole `B`. -/
theorem pow_succ_le_add_iff {B m y d : Nat} (hy : y < B ^ (m + 1)) (hd : d ≤ B) :
    B ^ (m + 1) ≤ y + d ↔ B ≤ y % B + d ∧ y / B + 1 = B ^ m := by
  rw [pow_succ'] at hy ⊢
  have hsplit := Nat.mod_add_div y B
  have hB : 0 < B := Nat.pos_of_mul_pos_right (Nat.zero_lt_of_lt hy)
  have hlow := Nat.mod_lt y hB
  have hq : y / B + 1 ≤ B ^ m := Nat.div_lt_of_lt_mul hy
  constructor
  · intro h
    have htop : y / B + 1 = B ^ m := by
      by_contra hne
      have hstep : B * (y / B + 2) ≤ B * B ^ m := Nat.mul_le_mul_left B (by omega)
      rw [Nat.mul_add] at hstep
      omega
    rw [← htop, Nat.mul_add] at h
    exact ⟨by omega, htop⟩
  · rintro ⟨hr, htop⟩
    rw [← htop, Nat.mul_add]
    omega

/-- A number of `m` digits to the base `B` is the largest one iff every digit is. -/
theorem succ_eq_pow_iff {B m y : Nat} (hB : 0 < B) (hy : y < B ^ m) :
    y + 1 = B ^ m ↔ ∀ i < m, y / B ^ i % B + 1 = B := by
  induction m generalizing y with
  | zero => simp_all
  | succ m ih =>
    have hq : y / B < B ^ m := Nat.div_lt_of_lt_mul (by rwa [← pow_succ'])
    have hlow := Nat.mod_lt y hB
    calc y + 1 = B ^ (m + 1)
      _ ↔ B ^ (m + 1) ≤ y + 1 := by omega
      _ ↔ B ≤ y % B + 1 ∧ y / B + 1 = B ^ m := pow_succ_le_add_iff hy hB
      _ ↔ y % B + 1 = B ∧ ∀ i < m, y / B ^ (i + 1) % B + 1 = B := by
        simp only [ih hq, Nat.div_div_eq_div_mul, ← pow_succ']
        exact and_congr_left' (by omega)
      _ ↔ ∀ i < m + 1, y / B ^ i % B + 1 = B := by
        rw [Nat.forall_lt_succ_left, pow_zero, Nat.div_one]

/-! ### `IsOverflow` in limbs (R101) -/

/-- Limb `i` is digit `i` to the base `2^W`. -/
theorem limbNat_eq_digit (w : LimbWidth) (x : Element) (i : Nat) :
    limbNat w x i = x.toNat / (2 ^ w.bits) ^ i % 2 ^ w.bits := by rw [limbNat, pow_mul]

/-- An element has one lowest limb and `LIMBS − 1` above it. -/
theorem base_pow_limbs (w : LimbWidth) : (2 ^ w.bits) ^ (w.limbs - 1 + 1) = size := by
  have hpos : 0 < w.limbs := by cases w <;> decide
  rw [Nat.sub_add_cancel hpos, ← pow_mul, bits_mul_limbs, size_eq]

theorem primeDiff_lt_base (w : LimbWidth) : primeDiff < 2 ^ w.bits := by cases w <;> decide

theorem isOverflow_iff_size_le (x : Element) : isOverflow x = true ↔ size ≤ x.toNat + primeDiff := by
  rw [isOverflow_iff, ← modulus_add_primeDiff, Nat.add_le_add_iff_right]

/-- `IsOverflow` as the datapath tests it, one limb at a time. -/
theorem isOverflow_iff_limbs (w : LimbWidth) (x : Element) :
    isOverflow x = true ↔
      2 ^ w.bits ≤ limbNat w x 0 + primeDiff ∧
        ∀ i < w.limbs - 1, limbNat w x (i + 1) + 1 = 2 ^ w.bits := by
  have hx : x.toNat < (2 ^ w.bits) ^ (w.limbs - 1 + 1) := base_pow_limbs w ▸ element_lt x
  have hq : x.toNat / 2 ^ w.bits < (2 ^ w.bits) ^ (w.limbs - 1) :=
    Nat.div_lt_of_lt_mul (by rwa [← pow_succ'])
  rw [isOverflow_iff_size_le, ← base_pow_limbs w, pow_succ_le_add_iff hx (primeDiff_lt_base w).le,
    succ_eq_pow_iff (base_pos w) hq]
  simp only [limbNat_eq_digit, Nat.div_div_eq_div_mul, ← pow_succ', pow_zero, Nat.div_one]

/-- `isOverflow_iff` with the modulus written out (R4). -/
theorem isOverflow_iff_ge (x : Element) : isOverflow x = true ↔ 2 ^ 3072 - 1103717 ≤ x.toNat := by
  rw [isOverflow_iff, modulus, primeDiff]

/-- `2^3072 − p` is `PRIME_DIFF` (R4). -/
theorem size_sub_modulus : 2 ^ 3072 - modulus = 1103717 := by
  rw [← size_eq, ← modulus_add_primeDiff]
  exact Nat.add_sub_cancel_left modulus primeDiff

/-- Settles O15: the lowest limb is number 0 and the higher ones are numbers `i + 1`. -/
theorem isOverflowInLimbs : Obligations.IsOverflowInLimbs := by
  refine fun w x => ⟨isOverflow_iff_ge x, ?_, size_sub_modulus⟩
  have hbase := primeDiff_lt_base w
  rw [isOverflow_iff_limbs w, ← limbs_eq]
  rw [primeDiff] at hbase ⊢
  refine and_congr (by omega) ⟨fun h i hi hlt => ?_, fun h i hi => ?_⟩
  · have hlimb := h (i - 1) (by omega)
    rw [Nat.sub_add_cancel hi] at hlimb
    omega
  · have hlimb := h (i + 1) (by omega) (by omega)
    omega

/-! ### `FullReduce` on each side of the modulus (R102) -/

/-- From `p` on, the discarded top carry takes `p` away. -/
theorem fullReduce_of_overflow {x : Element} (h : modulus ≤ x.toNat) :
    (fullReduce x).toNat = x.toNat - modulus ∧ (fullReduce x).toNat < primeDiff := by
  have hx := element_lt x
  have hsize := modulus_add_primeDiff
  have hval : (fullReduce x).toNat = x.toNat - modulus := by
    rw [fullReduce_toNat, show primeDiff + x.toNat = x.toNat - modulus + size by omega,
      Nat.add_mod_right, Nat.mod_eq_of_lt (by omega)]
  omega

/-- Below `p` there is no top carry. -/
theorem fullReduce_of_canonical {x : Element} (h : x.toNat < modulus) :
    (fullReduce x).toNat = x.toNat + primeDiff := by
  have hsize := modulus_add_primeDiff
  rw [fullReduce_toNat, Nat.mod_eq_of_lt (by omega), Nat.add_comm]

theorem primeDiff_lt_modulus : primeDiff < modulus := by
  have hsize := modulus_add_primeDiff
  have hsmall := primeDiff_lt
  have hlarge := size_large
  omega

/-- Adding `PRIME_DIFF`, which `p` does not divide, changes the residue. -/
theorem add_primeDiff_mod_ne (v : Nat) : (v + primeDiff) % modulus ≠ v % modulus := fun h => by
  have hzero : primeDiff ≡ 0 [MOD modulus] := Nat.ModEq.add_left_cancel' v h
  exact primeDiff_lt_modulus.not_ge
    (Nat.le_of_dvd primeDiff_pos ((Nat.modEq_zero_iff_dvd).mp hzero))

end Sys2Proof.Machine
end

section
/-! PROOFS of the family 41_element_basic.md, the commands. Each one writes one register (`setReg`) or
`FLAGS` (`setFlags`), or nothing: its obligation is the frame of that update and the value written. -/

namespace Sys2Proof.Machine

/-! ### The commands that write a register -/

/-- Settles O20: a canonical value is not spared, and its residue changes. -/
theorem fredAddsPrimeDiff : Obligations.FredAddsPrimeDiff := by
  intro rd s
  refine ⟨rfl, _, rfl, ?_, ?_, ?_, s.setReg_only rd _⟩ <;> rw [State.setReg_reg_self]
  · rw [fullReduce_toNat, Nat.add_comm, size_eq, primeDiff]
  · exact fullReduce_of_overflow
  · intro h
    rw [fullReduce_of_canonical h]
    exact ⟨rfl, add_primeDiff_mod_ne _⟩

/-- Settles O21. -/
theorem canonReducesModP : Obligations.CanonReducesModP := by
  intro rd s
  refine ⟨rfl, _, rfl, ?_, s.setReg_only rd _⟩
  rw [State.setReg_reg_self, canonical_toNat]

/-- Settles O17. -/
theorem setoneWritesOne : Obligations.SetoneWritesOne := by
  intro rd s
  refine ⟨rfl, _, rfl, ?_, s.setReg_only rd _⟩
  rw [State.setReg_reg_self]
  exact BitVec.toNat_one (by decide)

/-- Settles O18: the source is read before the write, so `rd = rs` is no special case. -/
theorem cpyCopiesAllBits : Obligations.CpyCopiesAllBits :=
  fun rd rs s => ⟨rfl, _, rfl, s.setReg_reg_self rd (s.reg rs), s.setReg_only rd _⟩

/-! ### The commands that write `FLAGS`, and `NOP` -/

/-- Settles O16. -/
theorem nopChangesNothing : Obligations.NopChangesNothing := ⟨by decide, fun _ => rfl⟩

/-- Settles O19. -/
theorem isovfWritesOv : Obligations.IsovfWritesOv := by
  intro rd s
  refine ⟨rfl, _, rfl, ?_, ?_, ?_, s.setFlags_only _⟩ <;> rw [State.setFlags_flags, Flags.withOv_eq]
  rw [isOverflow_iff_ge]

/-- Settles O22. -/
theorem cmpeqComparesStoredBits : Obligations.CmpeqComparesStoredBits :=
  fun _ _ s => ⟨rfl, _, rfl, decide_eq_true_iff, rfl, rfl, s.setFlags_only _⟩

/-- Settles O23. -/
theorem clrflgClearsTheFlags : Obligations.ClrflgClearsTheFlags :=
  fun s => ⟨by decide, _, rfl, rfl, s.setFlags_only Flags.cleared⟩

end Sys2Proof.Machine
end

section
/-! PROOFS of the family 42_mul_square.md, the columns of the datapath: adding products one by one to a
working accumulator is one addition of their sum, and a column made from its distinct pairs has the same
sum (R122, R126). -/

namespace Sys2Proof.Machine

/-! ### One addition to a working accumulator -/

/-- The number `v` added to a working accumulator, the sum cut to `3W` bits and the loss remembered: what
`muladd3`, `muldbladd3` and `mulnadd3` do with their products. -/
def Work.add (w : LimbWidth) (k : Work) (v : Nat) : Work := k.after (put3 w (k.acc.val3 w + v))

theorem Work.add_fits (w : LimbWidth) (k : Work) (v : Nat) : (k.add w v).acc.Fits w :=
  Acc.ofVal3_fits w _

theorem Work.add_zero {w : LimbWidth} {k : Work} (h : k.acc.Fits w) : k.add w 0 = k := by
  simp [Work.add, Work.after, put3_val3 h]

/-- Two additions are one: bits lost by the first are bits the sum loses. -/
theorem Work.add_add (w : LimbWidth) (k : Work) (u v : Nat) :
    (k.add w u).add w v = k.add w (u + v) := by
  have hval : (k.add w u).acc.val3 w = (k.acc.val3 w + u) % 2 ^ (3 * w.bits) := (put3_spec w _).1
  have hacc : Acc.ofVal3 w ((k.acc.val3 w + u) % 2 ^ (3 * w.bits) + v) =
      Acc.ofVal3 w (k.acc.val3 w + (u + v)) := by
    rw [← Acc.ofVal3_val3 (Acc.ofVal3_fits w ((k.acc.val3 w + u) % 2 ^ (3 * w.bits) + v)),
      ← Acc.ofVal3_val3 (Acc.ofVal3_fits w (k.acc.val3 w + (u + v))), Acc.val3_ofVal3,
      Acc.val3_ofVal3, Nat.mod_add_mod, Nat.add_assoc]
  have hovf : (decide (2 ^ (3 * w.bits) ≤ k.acc.val3 w + u) ||
      decide (2 ^ (3 * w.bits) ≤ (k.acc.val3 w + u) % 2 ^ (3 * w.bits) + v)) =
      decide (2 ^ (3 * w.bits) ≤ k.acc.val3 w + (u + v)) := by
    by_cases hlost : 2 ^ (3 * w.bits) ≤ k.acc.val3 w + u
    · rw [decide_eq_true hlost, Bool.true_or, decide_eq_true (by omega)]
    · rw [decide_eq_false hlost, Bool.false_or, Nat.mod_eq_of_lt (by omega), Nat.add_assoc]
  rw [Work.add, hval, Work.add, Work.add, Work.after, Work.after, Work.after, put3, put3, put3, hacc,
    Bool.or_assoc, hovf]

/-- An addition whose sum fits loses nothing. -/
theorem Work.add_exact {w : LimbWidth} {k : Work} {v : Nat}
    (h : k.acc.val3 w + v < 2 ^ (3 * w.bits)) :
    (k.add w v).acc.val3 w = k.acc.val3 w + v ∧ (k.add w v).ovf = k.ovf := by
  obtain ⟨hval, -, hovf⟩ := put3_exact w h
  exact ⟨hval, by rw [Work.add, Work.after, hovf, Bool.or_false]⟩

theorem Work.zero_fits (w : LimbWidth) : Work.zero.acc.Fits w := Acc.zero_fits w

theorem Work.zero_val3 (w : LimbWidth) : Work.zero.acc.val3 w = 0 := by
  simp [Work.zero, Acc.zero, Acc.val3]

/-! ### The sum of a column -/

/-- `Σ a[i]·b[i']` over the pairs of indices of a column. -/
def pairSum (w : LimbWidth) (a b : Element) (pairs : List (Nat × Nat)) : Nat :=
  (pairs.map fun p => limbNat w a p.1 * limbNat w b p.2).sum

@[simp] theorem pairSum_nil (w : LimbWidth) (a b : Element) : pairSum w a b [] = 0 := rfl

@[simp] theorem pairSum_cons (w : LimbWidth) (a b : Element) (p : Nat × Nat) (ps : List (Nat × Nat)) :
    pairSum w a b (p :: ps) = limbNat w a p.1 * limbNat w b p.2 + pairSum w a b ps := by
  simp [pairSum]

@[simp] theorem pairSum_append (w : LimbWidth) (a b : Element) (ps qs : List (Nat × Nat)) :
    pairSum w a b (ps ++ qs) = pairSum w a b ps + pairSum w a b qs := by
  simp [pairSum]

/-- A column is at most one square of the base for each of its pairs. -/
theorem pairSum_le (w : LimbWidth) (a b : Element) (ps : List (Nat × Nat)) :
    pairSum w a b ps ≤ ps.length * (2 ^ w.bits * 2 ^ w.bits) := by
  induction ps with
  | nil => simp
  | cons p ps ih =>
    have hproduct := Nat.mul_le_mul (limbNat_lt w a p.1).le (limbNat_lt w b p.2).le
    rw [pairSum_cons, List.length_cons, Nat.add_mul, one_mul]
    omega

theorem Work.after_muladd3 (w : LimbWidth) (k : Work) (a b : Element) (p : Nat × Nat) :
    k.after (muladd3 w k.acc (limb w a p.1) (limb w b p.2)) =
      k.add w (limbNat w a p.1 * limbNat w b p.2) := by
  rw [muladd3, limb_toNat, limb_toNat, Work.add]

theorem Work.after_muldbladd3 (w : LimbWidth) (k : Work) (x : Element) (p : Nat × Nat) :
    k.after (muldbladd3 w k.acc (limb w x p.1) (limb w x p.2)) =
      k.add w (2 * (limbNat w x p.1 * limbNat w x p.2)) := by
  rw [muldbladd3, limb_toNat, limb_toNat, Nat.mul_assoc, Work.add]

theorem addProducts_eq {w : LimbWidth} (a b : Element) (ps : List (Nat × Nat)) {k : Work}
    (h : k.acc.Fits w) : addProducts w a b ps k = k.add w (pairSum w a b ps) := by
  induction ps generalizing k with
  | nil => exact (Work.add_zero h).symm
  | cons p ps ih =>
    have hstep : addProducts w a b (p :: ps) k =
        addProducts w a b ps (k.add w (limbNat w a p.1 * limbNat w b p.2)) := by
      rw [← Work.after_muladd3]; rfl
    rw [hstep, ih (Work.add_fits w k _), Work.add_add, pairSum_cons]

theorem addCrossTerms_eq {w : LimbWidth} (x : Element) (ps : List (Nat × Nat)) {k : Work}
    (h : k.acc.Fits w) : addCrossTerms w x ps k = k.add w (2 * pairSum w x x ps) := by
  induction ps generalizing k with
  | nil => exact (Work.add_zero h).symm
  | cons p ps ih =>
    have hstep : addCrossTerms w x (p :: ps) k =
        addCrossTerms w x ps (k.add w (2 * (limbNat w x p.1 * limbNat w x p.2))) := by
      rw [← Work.after_muldbladd3]; rfl
    rw [hstep, ih (Work.add_fits w k _), Work.add_add, pairSum_cons, Nat.mul_add]

/-! ### A column from its distinct pairs (R126) -/

/-- The pairs `(s, s+n−1), …, (s+n−1, s)`: a rising run of `n` indices with the same run falling. -/
def runPairs (s n : Nat) : List (Nat × Nat) := (List.range n).map fun i => (s + i, s + n - 1 - i)

theorem lowPairs_eq_runPairs (j : Nat) : lowPairs j = runPairs 0 (j + 1) := by
  simp [lowPairs, runPairs]

theorem highPairs_eq_runPairs (w : LimbWidth) (j : Nat) :
    highPairs w j = runPairs (j + 1) (w.limbs - 1 - j) := by
  refine List.map_congr_left fun i hi => ?_
  have hlt := List.mem_range.mp hi
  exact Prod.ext rfl (by show w.limbs + j - (j + 1 + i) = j + 1 + (w.limbs - 1 - j) - 1 - i; omega)

/-- The outermost two pairs of a run are each other's mirror image. -/
theorem runPairs_add_two (s n : Nat) :
    runPairs s (n + 2) = (s, s + n + 1) :: (runPairs (s + 1) n ++ [(s + n + 1, s)]) := by
  have hinner : (List.range n).map ((fun i => (s + i, s + (n + 2) - 1 - i)) ∘ Nat.succ) =
      runPairs (s + 1) n :=
    List.map_congr_left fun i _ => Prod.ext
      (by show s + (i + 1) = s + 1 + i; omega)
      (by show s + (n + 2) - 1 - (i + 1) = s + 1 + n - 1 - i; omega)
  rw [runPairs, List.range_succ_eq_map, List.range_succ]
  have hfirst : s + (n + 2) - 1 - 0 = s + n + 1 := by omega
  have hlast : s + (n + 2) - 1 - (n + 1) = s := by omega
  simp only [List.map_cons, List.map_append, List.map_nil, List.map_map, hinner, Nat.succ_eq_add_one,
    hfirst, hlast, Nat.add_zero, Nat.add_assoc]

theorem crossPairs_runPairs_add_two (s n : Nat) :
    crossPairs (runPairs s (n + 2)) = (s, s + n + 1) :: crossPairs (runPairs (s + 1) n) := by
  have hfirst : s < s + n + 1 := by omega
  have hlast : ¬ s + n + 1 < s := by omega
  simp [runPairs_add_two, crossPairs, hfirst, hlast]

/-- The square term of a run of `n` pairs: the middle pair, if there is one. -/
def middleSquare (w : LimbWidth) (x : Element) (s n : Nat) : Nat :=
  if n % 2 = 1 then limbNat w x (s + n / 2) * limbNat w x (s + n / 2) else 0

theorem middleSquare_add_two (w : LimbWidth) (x : Element) (s n : Nat) :
    middleSquare w x s (n + 2) = middleSquare w x (s + 1) n := by
  have hmid : s + (n + 2) / 2 = s + 1 + n / 2 := by omega
  rw [middleSquare, middleSquare, Nat.add_mod_right, hmid]

/-- A column of a square is twice its cross terms and its square term: mirror pairs have one product. -/
theorem pairSum_runPairs (w : LimbWidth) (x : Element) (s n : Nat) :
    2 * pairSum w x x (crossPairs (runPairs s n)) + middleSquare w x s n =
      pairSum w x x (runPairs s n) := by
  induction n using Nat.twoStepInduction generalizing s with
  | zero => rfl
  | one => simp [runPairs, crossPairs, middleSquare]
  | more n ih _ =>
    have hmirror := Nat.mul_comm (limbNat w x (s + n + 1)) (limbNat w x s)
    rw [crossPairs_runPairs_add_two, runPairs_add_two, middleSquare_add_two, pairSum_cons,
      pairSum_cons, pairSum_append, ← ih (s + 1), pairSum_cons, pairSum_nil]
    simp only [hmirror]
    omega

theorem addDiagonal_eq {w : LimbWidth} (x : Element) (j i : Nat) {k : Work} (h : k.acc.Fits w) :
    addDiagonal w x j i k = k.add w (if j % 2 = 0 then limbNat w x i * limbNat w x i else 0) := by
  unfold addDiagonal
  split
  · rw [addProducts_eq x x _ h, pairSum_cons, pairSum_nil, Nat.add_zero]
  · exact (Work.add_zero h).symm

/-- The cross terms of a run, then its square term, add what all its products add. -/
theorem addDiagonal_addCrossTerms {w : LimbWidth} (x : Element) {i j s n : Nat} {k : Work}
    (hk : k.acc.Fits w) (hparity : j % 2 = 0 ↔ n % 2 = 1) (hmiddle : j % 2 = 0 → i = s + n / 2) :
    addDiagonal w x j i (addCrossTerms w x (crossPairs (runPairs s n)) k) =
      k.add w (pairSum w x x (runPairs s n)) := by
  have hsquare : (if j % 2 = 0 then limbNat w x i * limbNat w x i else 0) = middleSquare w x s n := by
    by_cases hj : j % 2 = 0
    · rw [if_pos hj, middleSquare, if_pos (hparity.mp hj), hmiddle hj]
    · rw [if_neg hj, middleSquare, if_neg (mt hparity.mpr hj)]
  rw [addCrossTerms_eq x _ hk, addDiagonal_eq x _ _ (Work.add_fits w k _), Work.add_add, hsquare,
    pairSum_runPairs]

theorem limbs_pos (w : LimbWidth) : 0 < w.limbs := by cases w <;> decide

theorem limbs_even (w : LimbWidth) : w.limbs % 2 = 0 := by cases w <;> rfl

/-- High column `L + j` of a square, both ways (R126). -/
theorem squareHighColumn_eq {w : LimbWidth} (x : Element) {j : Nat} (hj : j < w.limbs - 1) {k : Work}
    (hk : k.acc.Fits w) :
    addDiagonal w x j ((w.limbs + j) / 2) (addCrossTerms w x (crossPairs (highPairs w j)) k) =
      k.add w (pairSum w x x (highPairs w j)) := by
  have heven := limbs_even w
  rw [highPairs_eq_runPairs]
  exact addDiagonal_addCrossTerms x hk (by omega) (by omega)

/-- Low column `j` of a square, both ways (R126). -/
theorem squareLowColumn_eq {w : LimbWidth} (x : Element) (j : Nat) {k : Work} (hk : k.acc.Fits w) :
    addDiagonal w x j (j / 2) (addCrossTerms w x (crossPairs (lowPairs j)) k) =
      k.add w (pairSum w x x (lowPairs j)) := by
  rw [lowPairs_eq_runPairs]
  exact addDiagonal_addCrossTerms x hk (by omega) (by omega)

end Sys2Proof.Machine
end

section
/-! PROOFS of the family 42_mul_square.md, the product in columns: the columns of R122, weighted, add up
to the product of the operands, and with the high ones folded to a number congruent to it (R6). -/

namespace Sys2Proof.Machine

/-- Column `j` of the product, `Σ a[i]·b[j−i]`: limbs past the last one are 0. -/
def column (w : LimbWidth) (a b : Element) (j : Nat) : Nat :=
  ∑ i ∈ Finset.range (j + 1), limbNat w a i * limbNat w b (j - i)

/-! ### The columns of R122 are columns of the product -/

theorem two_pow_bits_mul_limbs (w : LimbWidth) : 2 ^ (w.bits * w.limbs) = size := by
  rw [bits_mul_limbs, size_eq]

theorem element_lt_of_limbs_le (w : LimbWidth) (v : Element) {n : Nat} (hn : w.limbs ≤ n) :
    v.toNat < 2 ^ (w.bits * n) :=
  calc v.toNat < size := element_lt v
    _ = 2 ^ (w.bits * w.limbs) := (two_pow_bits_mul_limbs w).symm
    _ ≤ 2 ^ (w.bits * n) := Nat.pow_le_pow_right (by decide) (Nat.mul_le_mul_left w.bits hn)

theorem limbNat_of_limbs_le (w : LimbWidth) (v : Element) {i : Nat} (hi : w.limbs ≤ i) :
    limbNat w v i = 0 := by
  rw [limbNat, Nat.div_eq_of_lt (element_lt_of_limbs_le w v hi), Nat.zero_mod]

theorem pairSum_lowPairs (w : LimbWidth) (a b : Element) (j : Nat) :
    pairSum w a b (lowPairs j) = column w a b j := by
  rw [pairSum, lowPairs, List.map_map]
  rfl

/-- High column `L + j` leaves out the pairs with an index past the last limb, on either side. -/
theorem pairSum_highPairs (w : LimbWidth) (a b : Element) {j : Nat} (hj : j < w.limbs) :
    pairSum w a b (highPairs w j) = column w a b (w.limbs + j) := by
  have hcount : w.limbs + j + 1 = j + 1 + (w.limbs - 1 - j) + (j + 1) := by omega
  have hleft : ∑ i ∈ Finset.range (j + 1), limbNat w a i * limbNat w b (w.limbs + j - i) = 0 :=
    Finset.sum_eq_zero fun i hi => by
      have := Finset.mem_range.mp hi
      rw [limbNat_of_limbs_le w b (by omega), Nat.mul_zero]
  have hright : ∑ i ∈ Finset.range (j + 1), limbNat w a (j + 1 + (w.limbs - 1 - j) + i) *
      limbNat w b (w.limbs + j - (j + 1 + (w.limbs - 1 - j) + i)) = 0 :=
    Finset.sum_eq_zero fun i _ => by rw [limbNat_of_limbs_le w a (by omega), Nat.zero_mul]
  rw [column, hcount, Finset.sum_range_add, Finset.sum_range_add, hleft, hright, Nat.zero_add,
    Nat.add_zero, pairSum, highPairs, List.map_map]
  rfl

/-! ### The weighted columns -/

/-- The lowest `n` limbs of a value, weighted. -/
theorem sum_limbNat (w : LimbWidth) (v : Element) (n : Nat) :
    ∑ i ∈ Finset.range n, limbNat w v i * 2 ^ (w.bits * i) = v.toNat % 2 ^ (w.bits * n) := by
  induction n with
  | zero => simp [Nat.mod_one]
  | succ n ih =>
    rw [Finset.sum_range_succ, ih, limbNat, Nat.mul_succ, pow_add, Nat.mod_mul,
      Nat.mul_comm (2 ^ (w.bits * n))]

/-- From `L` limbs on, the limbs are the whole value. -/
theorem sum_limbNat_of_limbs_le (w : LimbWidth) (v : Element) {n : Nat} (hn : w.limbs ≤ n) :
    ∑ i ∈ Finset.range n, limbNat w v i * 2 ^ (w.bits * i) = v.toNat := by
  rw [sum_limbNat, Nat.mod_eq_of_lt (element_lt_of_limbs_le w v hn)]

/-- The product is the sum of its columns, each at its weight. -/
theorem sum_column (w : LimbWidth) (a b : Element) :
    ∑ j ∈ Finset.range (w.limbs + w.limbs), column w a b j * 2 ^ (w.bits * j) =
      a.toNat * b.toNat := by
  have hrow : ∀ i ∈ Finset.range (w.limbs + w.limbs),
      ∑ k ∈ Finset.range (w.limbs + w.limbs - i),
        limbNat w a i * 2 ^ (w.bits * i) * (limbNat w b k * 2 ^ (w.bits * k)) =
      limbNat w a i * 2 ^ (w.bits * i) * b.toNat := by
    intro i _
    rw [← Finset.mul_sum]
    by_cases hi : w.limbs ≤ i
    · rw [limbNat_of_limbs_le w a hi, Nat.zero_mul, Nat.zero_mul, Nat.zero_mul]
    · rw [sum_limbNat_of_limbs_le w b (by omega)]
  have hcolumn : ∀ j, column w a b j * 2 ^ (w.bits * j) = ∑ i ∈ Finset.range (j + 1),
      limbNat w a i * 2 ^ (w.bits * i) * (limbNat w b (j - i) * 2 ^ (w.bits * (j - i))) := by
    intro j
    rw [column, Finset.sum_mul]
    refine Finset.sum_congr rfl fun i hi => ?_
    have hweight : w.bits * j = w.bits * i + w.bits * (j - i) := by
      rw [← Nat.mul_add, Nat.add_sub_cancel' (Nat.lt_succ_iff.mp (Finset.mem_range.mp hi))]
    rw [hweight, pow_add]
    ring
  calc ∑ j ∈ Finset.range (w.limbs + w.limbs), column w a b j * 2 ^ (w.bits * j)
    _ = ∑ i ∈ Finset.range (w.limbs + w.limbs), ∑ k ∈ Finset.range (w.limbs + w.limbs - i),
          limbNat w a i * 2 ^ (w.bits * i) * (limbNat w b k * 2 ^ (w.bits * k)) := by
      rw [← Finset.sum_range_diag_flip]
      exact Finset.sum_congr rfl fun j _ => hcolumn j
    _ = ∑ i ∈ Finset.range (w.limbs + w.limbs), limbNat w a i * 2 ^ (w.bits * i) * b.toNat :=
      Finset.sum_congr rfl hrow
    _ = a.toNat * b.toNat := by
      rw [← Finset.sum_mul, sum_limbNat_of_limbs_le w a (Nat.le_add_left _ _)]

/-! ### The folded columns -/

/-- The columns below `L`, weighted. -/
def lowColumns (w : LimbWidth) (a b : Element) : Nat :=
  ∑ j ∈ Finset.range w.limbs, column w a b j * 2 ^ (w.bits * j)

/-- The columns from `L` on, weighted from there. -/
def highColumns (w : LimbWidth) (a b : Element) : Nat :=
  ∑ j ∈ Finset.range w.limbs, column w a b (w.limbs + j) * 2 ^ (w.bits * j)

theorem lowColumns_add_highColumns (w : LimbWidth) (a b : Element) :
    lowColumns w a b + size * highColumns w a b = a.toNat * b.toNat := by
  rw [← sum_column w, Finset.sum_range_add, highColumns, Finset.mul_sum]
  refine congrArg (lowColumns w a b + ·) (Finset.sum_congr rfl fun j _ => ?_)
  rw [Nat.mul_add, pow_add, two_pow_bits_mul_limbs]
  ring

/-- What pass `j` adds to `wc`: high column `L + j` folded, and low column `j` (R122). -/
def foldedColumn (w : LimbWidth) (a b : Element) (j : Nat) : Nat :=
  primeDiff * pairSum w a b (highPairs w j) + pairSum w a b (lowPairs j)

theorem sum_foldedColumn (w : LimbWidth) (a b : Element) :
    ∑ j ∈ Finset.range w.limbs, foldedColumn w a b j * 2 ^ (w.bits * j) =
      lowColumns w a b + primeDiff * highColumns w a b := by
  rw [lowColumns, highColumns, Finset.mul_sum, ← Finset.sum_add_distrib]
  refine Finset.sum_congr rfl fun j hj => ?_
  rw [foldedColumn, pairSum_lowPairs, pairSum_highPairs w a b (Finset.mem_range.mp hj)]
  ring

/-- The first reduction keeps the residue: what all passes add is congruent to the product (R6). -/
theorem sum_foldedColumn_mod (w : LimbWidth) (a b : Element) :
    (∑ j ∈ Finset.range w.limbs, foldedColumn w a b j * 2 ^ (w.bits * j)) % modulus =
      a.toNat * b.toNat % modulus := by
  rw [sum_foldedColumn, ← lowColumns_add_highColumns w, ← modulus_add_primeDiff, Nat.add_mul,
    Nat.add_left_comm, Nat.add_comm (modulus * _), Nat.add_mul_mod_self_left]

end Sys2Proof.Machine
end

section
/-! PROOFS of the family 42_mul_square.md, the first reduction (R122): after `j` passes the limbs taken and
`wc` together hold the sum of the first `j` folded columns, with no bit lost. -/

namespace Sys2Proof.Machine

/-- A loop over `0 .. n−1` whose every pass takes `P j` to `P (j + 1)` ends in `P n`. -/
theorem foldl_range_induction {α : Type} {f : α → Nat → α} {init : α} {n : Nat} (P : Nat → α → Prop)
    (hinit : P 0 init) (hpass : ∀ j < n, ∀ q, P j q → P (j + 1) (f q j)) :
    P n ((List.range n).foldl f init) := by
  induction n with
  | zero => exact hinit
  | succ n ih =>
    rw [List.range_succ, List.foldl_append]
    exact hpass n (Nat.lt_succ_self n) _ (ih fun j hj => hpass j (Nat.lt_succ_of_lt hj))

/-! ### Bounds -/

theorem base_large (w : LimbWidth) : 2 ^ 32 ≤ 2 ^ w.bits := by cases w <;> decide

theorem limbs_le (w : LimbWidth) : w.limbs ≤ 96 := by cases w <;> decide

/-- `2^28` squares of the base are far from `3W` bits. -/
theorem squares_lt_base3 (w : LimbWidth) :
    2 ^ 28 * (2 ^ w.bits * 2 ^ w.bits) < 2 ^ (3 * w.bits) := by
  rw [base3_eq]
  exact Nat.mul_lt_mul_of_pos_right (lt_of_lt_of_le (by decide) (base_large w))
    (Nat.mul_pos (base_pos w) (base_pos w))

theorem highColumn_le (w : LimbWidth) (a b : Element) (j : Nat) :
    pairSum w a b (highPairs w j) ≤ 96 * (2 ^ w.bits * 2 ^ w.bits) := by
  have hlimbs := limbs_le w
  refine (pairSum_le w a b _).trans (Nat.mul_le_mul_right _ ?_)
  rw [highPairs, List.length_map, List.length_range]
  omega

theorem lowColumn_le (w : LimbWidth) (a b : Element) {j : Nat} (hj : j < w.limbs) :
    pairSum w a b (lowPairs j) ≤ 96 * (2 ^ w.bits * 2 ^ w.bits) := by
  have hlimbs := limbs_le w
  refine (pairSum_le w a b _).trans (Nat.mul_le_mul_right _ ?_)
  rw [lowPairs, List.length_map, List.length_range]
  omega

/-- At most `96·PRIME_DIFF + 96 < 2^27` squares of the base in one folded column. -/
theorem foldedColumn_le (w : LimbWidth) (a b : Element) {j : Nat} (hj : j < w.limbs) :
    foldedColumn w a b j ≤ 2 ^ 27 * (2 ^ w.bits * 2 ^ w.bits) := by
  have hhigh := highColumn_le w a b j
  have hlow := lowColumn_le w a b hj
  rw [foldedColumn, primeDiff]
  omega

/-! ### One pass as one addition -/

/-- A high column fits a cleared `wd`. -/
theorem zero_add_highColumn (w : LimbWidth) (a b : Element) (j : Nat) :
    (Work.zero.add w (pairSum w a b (highPairs w j))).acc.val3 w = pairSum w a b (highPairs w j) ∧
      (Work.zero.add w (pairSum w a b (highPairs w j))).ovf = false := by
  have hcolumn := highColumn_le w a b j
  have hroom := squares_lt_base3 w
  have hexact := Work.add_exact (w := w) (k := Work.zero) (v := pairSum w a b (highPairs w j))
    (by rw [Work.zero_val3]; omega)
  rwa [Work.zero_val3, Nat.zero_add] at hexact

/-- The fold of `wd` into `wc` is one addition, where `wd` has lost no bits. -/
theorem after_mulnadd3 (w : LimbWidth) (k : Work) {d : Work} (hd : d.ovf = false) :
    ({ k.after (mulnadd3 w k.acc d.acc primeDiff) with
        ovf := (k.after (mulnadd3 w k.acc d.acc primeDiff)).ovf || d.ovf } : Work) =
      k.add w (primeDiff * d.acc.val3 w) := by
  rw [hd, Bool.or_false]
  rfl

/-- Pass `j` of `Mul` adds its folded column to `wc` and takes one limb. -/
theorem mulPass_eq (w : LimbWidth) (a b : Element) (q : Partial) (j : Nat) :
    mulPass w a b q j = takeLimb w (q.work.add w (foldedColumn w a b j)) q.elem j := by
  obtain ⟨hval, hovf⟩ := zero_add_highColumn w a b j
  rw [mulPass, addProducts_eq a b (highPairs w j) (Work.zero_fits w), after_mulnadd3 w _ hovf, hval,
    addProducts_eq a b _ (Work.add_fits w _ _), Work.add_add, foldedColumn]

/-- Pass `j` of `Square` is pass `j` of `Mul` with both operands the same. -/
theorem sqrPass_eq {w : LimbWidth} (x : Element) (q : Partial) {j : Nat} (hj : j < w.limbs - 1) :
    sqrPass w x q j = mulPass w x x q j := by
  have hhigh := squareHighColumn_eq x hj (Work.zero_fits w)
  obtain ⟨hval, hovf⟩ := zero_add_highColumn w x x j
  rw [mulPass_eq, sqrPass, hhigh, after_mulnadd3 w _ hovf, hval,
    squareLowColumn_eq x j (Work.add_fits w _ _), Work.add_add, foldedColumn]

/-! ### The passes together -/

/-- What holds of `wc` and the scratch element when `j` columns with the sums `c` have been added and `j`
limbs taken: no limb is larger than `W` bits, no bit is lost, and limbs and `wc` hold the weighted sum. -/
structure ColumnsDone (w : LimbWidth) (c : Nat → Nat) (j : Nat) (q : Partial) : Prop where
  fits    : q.work.acc.Fits w
  noCarry : q.work.acc.carry = 0
  exact   : q.work.ovf = false
  elem_lt : q.elem.toNat < 2 ^ (w.bits * j)
  value   : q.elem.toNat + 2 ^ (w.bits * j) * q.work.acc.val3 w =
    ∑ i ∈ Finset.range j, c i * 2 ^ (w.bits * i)

/-- The limb that `extract3` takes is the remainder by the base, and what it leaves the quotient. -/
theorem extract3_div_mod {w : LimbWidth} {a : Acc} (h : a.Fits w) :
    (extract3 a).out.toNat = a.val3 w % 2 ^ w.bits ∧
      (extract3 a).acc.val3 w = a.val3 w / 2 ^ w.bits := by
  have hout : (extract3 a).out.toNat < 2 ^ w.bits := h.low
  rw [extract3_value w a, Nat.add_mul_mod_self_left, Nat.mod_eq_of_lt hout,
    Nat.add_mul_div_left _ _ (base_pos w), Nat.div_eq_of_lt hout, Nat.zero_add]
  exact ⟨rfl, rfl⟩

/-- A value below `2^(W·j)` with the lowest limb of `v` put above it: the rest of `v` is one limb up. -/
theorem put_limb (w : LimbWidth) {e v j : Nat} (he : e < 2 ^ (w.bits * j)) :
    e + 2 ^ (w.bits * j) * (v % 2 ^ w.bits) < 2 ^ (w.bits * (j + 1)) ∧
      e + 2 ^ (w.bits * j) * (v % 2 ^ w.bits) + 2 ^ (w.bits * (j + 1)) * (v / 2 ^ w.bits) =
        e + 2 ^ (w.bits * j) * v := by
  have hweight : 2 ^ (w.bits * (j + 1)) = 2 ^ (w.bits * j) * 2 ^ w.bits := by
    rw [Nat.mul_succ, pow_add]
  have hlimb := Nat.mod_lt v (base_pos w)
  constructor
  · calc e + 2 ^ (w.bits * j) * (v % 2 ^ w.bits)
      _ < 2 ^ (w.bits * j) * (v % 2 ^ w.bits + 1) := by rw [Nat.mul_succ]; omega
      _ ≤ 2 ^ (w.bits * (j + 1)) := hweight ▸ Nat.mul_le_mul_left _ hlimb
  · rw [hweight, Nat.mul_assoc, Nat.add_assoc, ← Nat.mul_add, Nat.mod_add_div]

/-- One more column added and one more limb taken. -/
theorem columnsDone_takeLimb {w : LimbWidth} {c : Nat → Nat} {j : Nat} {q : Partial}
    (h : ColumnsDone w c j q) (hj : j < w.limbs) (hsum : q.work.acc.val3 w + c j < 2 ^ (3 * w.bits)) :
    ColumnsDone w c (j + 1) (takeLimb w (q.work.add w (c j)) q.elem j) ∧
      (takeLimb w (q.work.add w (c j)) q.elem j).work.acc.val3 w =
        (q.work.acc.val3 w + c j) / 2 ^ w.bits := by
  obtain ⟨hval, hovf⟩ := Work.add_exact hsum
  have hfits := Work.add_fits w q.work (c j)
  obtain ⟨hout, hrest⟩ := extract3_div_mod hfits
  obtain ⟨hlt, hvalue⟩ := put_limb w (v := q.work.acc.val3 w + c j) h.elem_lt
  rw [hval] at hout hrest
  have helem : (takeLimb w (q.work.add w (c j)) q.elem j).elem.toNat =
      q.elem.toNat + 2 ^ (w.bits * j) * ((q.work.acc.val3 w + c j) % 2 ^ w.bits) := by
    rw [takeLimb, setLimb_toNat_of_lt w _ _ hj h.elem_lt, hout, Nat.mod_mod]
  refine ⟨⟨extract3_fits hfits, rfl, hovf.trans h.exact, helem ▸ hlt, ?_⟩, hrest⟩
  calc (takeLimb w (q.work.add w (c j)) q.elem j).elem.toNat +
        2 ^ (w.bits * (j + 1)) * (takeLimb w (q.work.add w (c j)) q.elem j).work.acc.val3 w
    _ = q.elem.toNat + 2 ^ (w.bits * j) * (q.work.acc.val3 w + c j) := by
      rw [helem, ← hvalue]; exact congrArg _ (congrArg _ hrest)
    _ = ∑ i ∈ Finset.range (j + 1), c i * 2 ^ (w.bits * i) := by
      rw [Finset.sum_range_succ, ← h.value]; ring

theorem element_zero_toNat : (0 : Element).toNat = 0 := BitVec.toNat_zero

theorem columnsDone_zero (w : LimbWidth) (c : Nat → Nat) :
    ColumnsDone w c 0 { work := Work.zero, elem := 0 } where
  fits := Acc.zero_fits w
  noCarry := rfl
  exact := rfl
  elem_lt := by rw [element_zero_toNat]; exact Nat.two_pow_pos _
  value := by
    rw [Work.zero_val3, element_zero_toNat, Finset.sum_range_zero, Nat.mul_zero, Nat.add_zero]

/-- `wc` between two passes: less than `2^28` times the base, since a folded column is at most `2^27`
squares of the base. -/
theorem mulPasses_done (w : LimbWidth) (a b : Element) {n : Nat} (hn : n ≤ w.limbs) :
    ColumnsDone w (foldedColumn w a b) n
        ((List.range n).foldl (mulPass w a b) { work := Work.zero, elem := 0 }) ∧
      ((List.range n).foldl (mulPass w a b) { work := Work.zero, elem := 0 }).work.acc.val3 w <
        2 ^ 28 * 2 ^ w.bits := by
  refine foldl_range_induction
    (fun j q => ColumnsDone w (foldedColumn w a b) j q ∧ q.work.acc.val3 w < 2 ^ 28 * 2 ^ w.bits)
    ⟨columnsDone_zero w _, ?_⟩ fun j hj q ⟨hdone, hsmall⟩ => ?_
  · rw [Work.zero_val3]
    exact Nat.mul_pos (by decide) (base_pos w)
  · have hcolumn := foldedColumn_le w a b (hj.trans_le hn)
    have hbase : 2 * 2 ^ w.bits ≤ 2 ^ w.bits * 2 ^ w.bits :=
      Nat.mul_le_mul_right _ (le_trans (by decide) (base_large w))
    have hsum : q.work.acc.val3 w + foldedColumn w a b j < 2 ^ 28 * (2 ^ w.bits * 2 ^ w.bits) := by
      omega
    obtain ⟨hnext, hrest⟩ :=
      columnsDone_takeLimb hdone (hj.trans_le hn) (hsum.trans (squares_lt_base3 w))
    rw [mulPass_eq]
    refine ⟨hnext, hrest ▸ Nat.div_lt_of_lt_mul ?_⟩
    rwa [Nat.mul_left_comm]

/-! ### The first reduction -/

/-- Column `2L − 1` of the product is empty. -/
theorem foldedColumn_last (w : LimbWidth) (a b : Element) :
    foldedColumn w a b (w.limbs - 1) = pairSum w a b (lowPairs (w.limbs - 1)) := by
  rw [foldedColumn, highPairs, Nat.sub_self, List.range_zero, List.map_nil, pairSum_nil, Nat.mul_zero,
    Nat.zero_add]

/-- Steps 1 and 2 of `Mul` (R122): all columns are added with no bit lost. What is left in `wc` is small
enough to be scaled by `PRIME_DIFF` in two limbs; R92 and R129 claim more, see log entry 7. -/
theorem mulColumns_done (w : LimbWidth) (a b : Element) :
    ColumnsDone w (foldedColumn w a b) w.limbs (mulColumns w a b) ∧
      (mulColumns w a b).work.acc.val3 w < 97 * 2 ^ w.bits := by
  have hlast : w.limbs - 1 < w.limbs := Nat.sub_lt (limbs_pos w) Nat.one_pos
  have hbase := base_large w
  have hcolumn := lowColumn_le w a b hlast
  have hroom := squares_lt_base3 w
  obtain ⟨hdone, hsmall⟩ := mulPasses_done w a b hlast.le
  rw [← foldedColumn_last] at hcolumn
  have hbound : 2 ^ 28 * 2 ^ w.bits ≤ 2 ^ w.bits * 2 ^ w.bits :=
    Nat.mul_le_mul_right _ (le_trans (by decide) hbase)
  obtain ⟨hnext, hrest⟩ := columnsDone_takeLimb hdone hlast (by omega)
  rw [Nat.sub_add_cancel (by omega)] at hnext
  rw [mulColumns, addProducts_eq a b _ hdone.fits, ← foldedColumn_last]
  refine ⟨hnext, hrest ▸ Nat.div_lt_of_lt_mul ?_⟩
  rw [Nat.mul_left_comm]
  omega

/-- Steps 1 and 2 of `Square` leave what those of `Mul` leave with both operands the same (R126). -/
theorem sqrColumns_eq (w : LimbWidth) (x : Element) : sqrColumns w x = mulColumns w x x := by
  have hpasses : (List.range (w.limbs - 1)).foldl (sqrPass w x) { work := Work.zero, elem := 0 } =
      (List.range (w.limbs - 1)).foldl (mulPass w x x) { work := Work.zero, elem := 0 } :=
    List.foldl_ext _ _ _ fun q j hj => sqrPass_eq x q (List.mem_range.mp hj)
  obtain ⟨hdone, -⟩ := mulPasses_done w x x (Nat.sub_le w.limbs 1)
  have hlimbs := limbs_even w
  have hpos := limbs_pos w
  have hodd : ¬ (w.limbs - 1) % 2 = 0 := by omega
  have hcolumn := squareLowColumn_eq x (w.limbs - 1) hdone.fits
  rw [addDiagonal, if_neg hodd] at hcolumn
  rw [sqrColumns, hpasses, hcolumn, mulColumns, addProducts_eq x x _ hdone.fits]

end Sys2Proof.Machine
end

section
/-! PROOFS of the family 42_mul_square.md, the second reduction and the end (R123, R124): the scratch element
plus `PRIME_DIFF` times what is left in `wc`, limb by limb, and the same last steps as on values. -/

namespace Sys2Proof.Machine

/-! ### The second reduction -/

/-- What holds of `wc` and the scratch element after `j` limbs of the addition of `t` to the number `m` that
`wc` held: they hold the sum of `m` and the lowest `j` limbs of `t`, and no bit is lost. -/
structure AdditionDone (w : LimbWidth) (m : Nat) (t : Element) (j : Nat) (q : Partial) : Prop where
  low_lt  : q.work.acc.low.toNat < 2 ^ w.bits
  high_lt : q.work.acc.high.toNat < 2 ^ w.bits
  exact   : q.work.ovf = false
  elem_lt : q.elem.toNat < 2 ^ (w.bits * j)
  value   : q.elem.toNat + 2 ^ (w.bits * j) * q.work.acc.val2 w = m + t.toNat % 2 ^ (w.bits * j)

/-- `addnextract2` divides by the base and loses nothing: the carry out of two limbs is the new high limb. -/
theorem addnextract2_div_mod {w : LimbWidth} {a : Acc} {x : Limb} (hl : a.low.toNat < 2 ^ w.bits)
    (hh : a.high.toNat < 2 ^ w.bits) (hx : x.toNat < 2 ^ w.bits) :
    (addnextract2 w a x).out.toNat = (a.val2 w + x.toNat) % 2 ^ w.bits ∧
      (addnextract2 w a x).acc.val2 w = (a.val2 w + x.toNat) / 2 ^ w.bits := by
  obtain ⟨hout, hlow, hhigh, -, -⟩ := addnextract2_spec w hl hh hx
  refine ⟨hout, ?_⟩
  rw [Acc.val2, hlow, hhigh, base2_eq, ← Nat.div_div_eq_div_mul, Nat.mod_add_div]

theorem limbNat_add_mod (w : LimbWidth) (t : Element) (j : Nat) :
    t.toNat % 2 ^ (w.bits * j) + 2 ^ (w.bits * j) * limbNat w t j =
      t.toNat % 2 ^ (w.bits * (j + 1)) := by
  rw [limbNat, Nat.mul_succ, pow_add, Nat.mod_mul]

/-- One more limb added. -/
theorem additionDone_addLimb {w : LimbWidth} {m : Nat} {t : Element} {j : Nat} {q : Partial}
    (h : AdditionDone w m t j q) (hj : j < w.limbs) :
    AdditionDone w m t (j + 1) (addLimb w t q j) := by
  have hx : (limb w t j).toNat < 2 ^ w.bits := by rw [limb_toNat]; exact limbNat_lt w t j
  obtain ⟨hout, hrest⟩ := addnextract2_div_mod h.low_lt h.high_lt hx
  obtain ⟨hlt, hvalue⟩ := put_limb w (v := q.work.acc.val2 w + (limb w t j).toNat) h.elem_lt
  have helem : (addLimb w t q j).elem.toNat = q.elem.toNat +
      2 ^ (w.bits * j) * ((q.work.acc.val2 w + (limb w t j).toNat) % 2 ^ w.bits) := by
    rw [addLimb, setLimb_toNat_of_lt w _ _ hj h.elem_lt, hout, Nat.mod_mod]
  refine ⟨limbOf_lt w _, limbOf_lt w _, h.exact, helem ▸ hlt, ?_⟩
  calc (addLimb w t q j).elem.toNat + 2 ^ (w.bits * (j + 1)) * (addLimb w t q j).work.acc.val2 w
    _ = q.elem.toNat + 2 ^ (w.bits * j) * (q.work.acc.val2 w + (limb w t j).toNat) := by
      rw [helem, ← hvalue]; exact congrArg _ (congrArg _ hrest)
    _ = m + t.toNat % 2 ^ (w.bits * (j + 1)) := by
      rw [Nat.mul_add, ← Nat.add_assoc, h.value, limb_toNat, Nat.add_assoc, limbNat_add_mod]

/-- Step 3 of `Mul` (R123): where `PRIME_DIFF` times the two low limbs fits them, it is added to the
scratch element with no bit lost. -/
theorem secondReduction_done {w : LimbWidth} {q : Partial} (hexact : q.work.ovf = false)
    (hfit : primeDiff * q.work.acc.val2 w < 2 ^ (2 * w.bits)) :
    AdditionDone w (primeDiff * q.work.acc.val2 w) q.elem w.limbs (secondReduction w q) := by
  obtain ⟨hval, hlow, hhigh, -, hovf⟩ := muln2_spec w q.work.acc primeDiff
  refine foldl_range_induction (AdditionDone w (primeDiff * q.work.acc.val2 w) q.elem)
    ⟨hlow, hhigh, ?_, ?_, ?_⟩ fun j hj r hr => additionDone_addLimb hr hj
  · have hnone : (muln2 w q.work.acc primeDiff).ovf = false :=
      Bool.eq_false_iff.mpr (mt hovf.mp hfit.not_ge)
    rw [Work.after, hexact, hnone, Bool.or_false]
  · rw [element_zero_toNat]
    exact Nat.two_pow_pos _
  · rw [element_zero_toNat, Nat.mul_zero, pow_zero, Nat.mod_one, Nat.zero_add, Nat.one_mul,
      Nat.add_zero, Work.after, hval, Nat.mod_eq_of_lt hfit]

/-! ### The assertions and the final canonicalisation -/

/-- `finishMul` on a value given as what lies above bit 3071 and the 3072 bits below. -/
theorem finishMul_add_size_mul (e : Element) (c : Nat) :
    finishMul (e.toNat + size * c) =
      if c ≤ 1 then some (canonical (if c = 1 then fullReduce e else e)) else none := by
  have hlt := element_lt e
  have htop : (e.toNat + size * c) / size = c := by
    rw [Nat.add_mul_div_left _ _ (Nat.zero_lt_of_lt hlt), Nat.div_eq_of_lt hlt, Nat.zero_add]
  have hlow : BitVec.ofNat 3072 (e.toNat + size * c) = e := BitVec.eq_of_toNat_eq (by
    rw [ofNat_toNat_size, Nat.add_mul_mod_self_left, Nat.mod_eq_of_lt hlt])
  rw [finishMul, hlow, ← size_eq, htop]

/-- The last steps on limbs are the last steps on values (R123, R124): `carryLow` with `carryHigh` is what
lies above bit 3071. -/
theorem finishLimbs_eq (w : LimbWidth) (q : Partial) :
    finishLimbs q = finishMul (q.elem.toNat + size * q.work.acc.val2 w) := by
  rw [finishMul_add_size_mul, finishLimbs]
  by_cases hhigh : q.work.acc.high = 0
  · have hval : q.work.acc.val2 w = q.work.acc.low.toNat := by simp [Acc.val2, hhigh]
    rw [if_neg (not_not_intro hhigh), hval]
    by_cases hzero : q.work.acc.low = 0
    · simp [hzero, canonical]
    · by_cases hone : q.work.acc.low = 1
      · simp [hone, canonical]
      · have h0 : q.work.acc.low.toNat ≠ 0 := fun h => hzero (BitVec.eq_of_toNat_eq h)
        have h1 : q.work.acc.low.toNat ≠ 1 := fun h => hone (BitVec.eq_of_toNat_eq h)
        rw [if_pos ⟨hzero, hone⟩, if_neg (by omega)]
  · have hpos : q.work.acc.high.toNat ≠ 0 := fun h => hhigh (BitVec.eq_of_toNat_eq h)
    have hbase := base_large w
    have hlarge : 2 ^ w.bits * 1 ≤ 2 ^ w.bits * q.work.acc.high.toNat :=
      Nat.mul_le_mul_left _ (Nat.pos_of_ne_zero hpos)
    rw [if_pos hhigh, if_neg (by rw [Acc.val2]; omega)]

/-! ### The datapath -/

/-- `wc` after the first reduction, times `PRIME_DIFF`, fits two limbs, and all the more is small beside
the scratch element. -/
theorem primeDiff_mul_carry_lt {w : LimbWidth} {c : Nat} (hc : c < 97 * 2 ^ w.bits) :
    primeDiff * c < 2 ^ (2 * w.bits) ∧ primeDiff * c < 2 ^ 150 := by
  have hbase : 2 ^ 28 * 2 ^ w.bits ≤ 2 ^ w.bits * 2 ^ w.bits :=
    Nat.mul_le_mul_right _ (le_trans (by decide) (base_large w))
  have hwidth := base_le w
  rw [base2_eq, primeDiff]
  omega

/-- The value after the second reduction is congruent to that of the first (R6). -/
theorem primeDiff_mul_add_mod (t c : Nat) :
    (primeDiff * c + t) % modulus = (t + size * c) % modulus := by
  rw [← modulus_add_primeDiff, Nat.add_mul, Nat.add_comm (modulus * c), ← Nat.add_assoc,
    Nat.add_mul_mod_self_left, Nat.add_comm]

/-- The limb algorithm of `Mul` yields the product modulo `p` and loses no bit (R121 to R124, R129). -/
theorem mulLimbs_eq (w : LimbWidth) (a b : Element) :
    mulLimbs w a b = { result := some (mulP a b), ovf := false } := by
  obtain ⟨hcolumns, hsmall⟩ := mulColumns_done w a b
  have hval : (mulColumns w a b).work.acc.val3 w = (mulColumns w a b).work.acc.val2 w := by
    simp [Acc.val3, Acc.val2, hcolumns.noCarry]
  rw [hval] at hsmall
  obtain ⟨hfit, hlt⟩ := primeDiff_mul_carry_lt hsmall
  have hsecond := secondReduction_done hcolumns.exact hfit
  have hsum := hcolumns.value
  have htotal := hsecond.value
  rw [two_pow_bits_mul_limbs, hval] at hsum
  rw [two_pow_bits_mul_limbs, Nat.mod_eq_of_lt (element_lt _)] at htotal
  obtain ⟨y, hy, hmod⟩ := finishMul_eq
    (v := primeDiff * (mulColumns w a b).work.acc.val2 w + (mulColumns w a b).elem.toNat)
    (by have := element_lt (mulColumns w a b).elem; omega)
  have hresult : y = mulP a b := BitVec.eq_of_toNat_eq (by
    rw [hmod, primeDiff_mul_add_mod, hsum, sum_foldedColumn_mod, mulP_toNat])
  rw [mulLimbs, finishLimbs_eq w, htotal, hy, hresult, hsecond.exact]

/-- The limb algorithm of `Square` is that of `Mul` with both operands the same (R127). -/
theorem sqrLimbs_eq_mulLimbs (w : LimbWidth) (x : Element) : sqrLimbs w x = mulLimbs w x x := by
  rw [sqrLimbs, sqrColumns_eq, mulLimbs]

/-- Settles O26. -/
theorem limbMultiplierYieldsTheProductModP : Obligations.LimbMultiplierYieldsTheProductModP :=
  fun w a b => ⟨mulLimbs_eq w a b, mulP_toNat a b, mulFold_eq a b⟩

/-- Settles O27. -/
theorem limbSquarerYieldsTheSquareModP : Obligations.LimbSquarerYieldsTheSquareModP :=
  fun w a => ⟨(sqrLimbs_eq_mulLimbs w a).trans (mulLimbs_eq w a a), mulP_toNat a a, sqrFold_eq a⟩

end Sys2Proof.Machine
end

section
/-! PROOFS of the family 42_mul_square.md, the commands: `MUL` and `SQR` write one register with the
product modulo `p` (R125, R128), and so multiplications of one register commute (R131). -/

namespace Sys2Proof.Machine

/-- What `MUL` does: no assertion fails, so it writes one register. -/
theorem exec_mul (rd rs : Reg) (s : State) :
    exec (.mul rd rs) s = .next (s.setReg rd (mulP (s.reg rd) (s.reg rs))) := by
  rw [← State.finishField_some s rd (encode (.mul rd rs)), ← mulFold_eq]
  rfl

/-- What `SQR` does. -/
theorem exec_sqr (rd : Reg) (s : State) :
    exec (.sqr rd) s = .next (s.setReg rd (mulP (s.reg rd) (s.reg rd))) := by
  rw [← State.finishField_some s rd (encode (.sqr rd)), ← sqrFold_eq]
  rfl

/-- Settles O24. -/
theorem mulWritesTheProductModP : Obligations.MulWritesTheProductModP := by
  refine fun rd rs s => ⟨rfl, _, exec_mul rd rs s, ?_, s.setReg_only rd _⟩
  rw [State.setReg_reg_self, mulP_toNat]

/-- Settles O25: the value written is that of `MUL` with `rs = rd`. -/
theorem sqrWritesTheSquareModP : Obligations.SqrWritesTheSquareModP := by
  refine fun rd s => ⟨rfl, ⟨_, exec_sqr rd s, ?_, s.setReg_only rd _⟩, ?_⟩
  · rw [State.setReg_reg_self, mulP_toNat]
  · rw [exec_sqr, exec_mul]

/-- Factors may be multiplied in either order. -/
theorem mulP_right_comm (a x y : Element) : mulP (mulP a x) y = mulP (mulP a y) x :=
  BitVec.eq_of_toNat_eq (by
    rw [mulP_toNat, mulP_toNat, mulP_toNat, mulP_toNat, Nat.mod_mul_mod, Nat.mod_mul_mod,
      Nat.mul_right_comm])

@[simp] theorem State.setReg_setReg (s : State) (r : Reg) (v u : Element) :
    (s.setReg r v).setReg r u = s.setReg r u :=
  congrArg (fun g : Regs => { s with regs := g }) (s.regs.set_set r v u)

/-- `MUL` of a register just written: the other factor is not what was written. -/
theorem exec_mul_setReg {rd ry : Reg} (hy : ry ≠ rd) (s : State) (v : Element) :
    exec (.mul rd ry) (s.setReg rd v) = .next (s.setReg rd (mulP v (s.reg ry))) := by
  rw [exec_mul, State.setReg_reg_self, State.setReg_reg_ne s v hy, State.setReg_setReg]

/-- Settles O28: the first multiplication leaves the other factor's register alone. -/
theorem multiplicationsCommute : Obligations.MultiplicationsCommute := by
  intro rd rx ry s t u hx hy ht hu
  rw [exec_mul] at ht
  obtain rfl := Host.Outcome.next.inj ht
  rw [exec_mul_setReg hy] at hu
  exact ⟨_, exec_mul rd ry s, by rw [exec_mul_setReg hx, mulP_right_comm, hu]⟩

end Sys2Proof.Machine
end

section
/-! PROOFS of the family 43_inverse_divide.md. Every value of the inverse chain is congruent modulo `p` to
a power of the operand, and what a squaring or a multiplication does is arithmetic on exponents; the
chain's exponent comes to `p − 2` (R143). -/

namespace Sys2Proof.Machine

/-! ### Residues modulo `p` -/

/-- The canonical value congruent to `v`. -/
def residue (v : Nat) : Element := BitVec.ofNat 3072 (v % modulus)

@[simp] theorem residue_toNat (v : Nat) : (residue v).toNat = v % modulus := by
  rw [residue, ofNat_toNat_size, Nat.mod_eq_of_lt ((Nat.mod_lt _ modulus_pos).trans modulus_lt_size)]

theorem mulP_eq_residue (a b : Element) : mulP a b = residue (a.toNat * b.toNat) := rfl

theorem residue_congr {u v : Nat} (h : u ≡ v [MOD modulus]) : residue u = residue v :=
  congrArg (BitVec.ofNat 3072) h

theorem eq_residue {y : Element} {v : Nat} (hlt : y.toNat < modulus) (h : y.toNat ≡ v [MOD modulus]) :
    y = residue v :=
  BitVec.eq_of_toNat_eq (by rw [residue_toNat, ← h, Nat.mod_eq_of_lt hlt])

theorem canonical_eq_residue (x : Element) : canonical x = residue x.toNat :=
  BitVec.eq_of_toNat_eq (by rw [canonical_toNat, residue_toNat])

theorem canonical_modEq (x : Element) : (canonical x).toNat ≡ x.toNat [MOD modulus] := by
  rw [canonical_toNat]; exact Nat.mod_modEq _ _

/-! ### Powers of an operand -/

/-- `y` is `x^e` modulo `p`, reduced or not. -/
def IsPower (x : Element) (e : Nat) (y : Element) : Prop := y.toNat ≡ x.toNat ^ e [MOD modulus]

theorem IsPower.one (x : Element) : IsPower x 1 x := by rw [IsPower, pow_one]

/-- Exponents add in a product (R121). -/
theorem IsPower.mulP {x a b : Element} {e f : Nat} (ha : IsPower x e a) (hb : IsPower x f b) :
    IsPower x (e + f) (mulP a b) := by
  rw [IsPower, mulP_toNat, pow_add]
  exact (Nat.mod_modEq _ _).trans (Nat.ModEq.mul ha hb)

/-- Each squaring doubles the exponent (R141). -/
theorem squarings_isPower {x r : Element} {e : Nat} (k : Nat) (hr : IsPower x e r) :
    ∃ q, squarings k r = some q ∧ IsPower x (e * 2 ^ k) q := by
  induction k generalizing e r with
  | zero => exact ⟨r, rfl, by rwa [pow_zero, Nat.mul_one]⟩
  | succ k ih =>
    obtain ⟨q, hq, hpow⟩ := ih (hr.mulP hr)
    refine ⟨q, by rw [squarings, sqrFold_eq]; exact hq, ?_⟩
    rwa [pow_succ', ← Nat.mul_assoc, Nat.mul_two]

/-- What `SqnMul` does (R141). -/
theorem sqnMul_eq (r : Element) (k : Nat) (m : Element) :
    sqnMul r k m = some (residue (r.toNat ^ 2 ^ k * m.toNat)) := by
  obtain ⟨q, hq, hpow⟩ := squarings_isPower k (IsPower.one r)
  rw [Nat.one_mul] at hpow
  rw [sqnMul, hq, ← residue_congr (Nat.ModEq.mul_right m.toNat hpow)]
  exact mulFold_eq q m

theorem sqnMul_isPower {x r m : Element} {e f : Nat} (k : Nat) (hr : IsPower x e r)
    (hm : IsPower x f m) : ∃ q, sqnMul r k m = some q ∧ IsPower x (e * 2 ^ k + f) q := by
  refine ⟨_, sqnMul_eq r k m, ?_⟩
  rw [IsPower, residue_toNat, pow_add, pow_mul]
  exact (Nat.mod_modEq _ _).trans ((Nat.ModEq.pow _ hr).mul hm)

/-! ### The exponent of the chain (R142, R143) -/

/-- The exponent of table entry `i`: `2^i` binary ones. -/
def repunit (i : Nat) : Nat := 2 ^ 2 ^ i - 1

/-- A run of ones, shifted by its own length, with itself below: a run twice as long. -/
theorem repunit_succ (i : Nat) : repunit i * 2 ^ 2 ^ i + repunit i = repunit (i + 1) := by
  have hsplit : 2 ^ 2 ^ (i + 1) = 2 ^ 2 ^ i * 2 ^ 2 ^ i := by rw [pow_succ, Nat.mul_two, pow_add]
  have hpos : 0 < 2 ^ 2 ^ i := Nat.two_pow_pos _
  have hle : 2 ^ 2 ^ i ≤ 2 ^ 2 ^ i * 2 ^ 2 ^ i := Nat.le_mul_of_pos_left _ hpos
  rw [repunit, repunit, hsplit, Nat.sub_mul, Nat.one_mul]
  omega

/-- The exponent that chain steps make of the exponent `e`. -/
def chainExponent (e : Nat) (steps : List (Nat × Nat)) : Nat :=
  steps.foldl (fun e c => e * 2 ^ c.1 + repunit c.2) e

/-- The fourteen steps from `powers[11]` come to exactly `p − 2` (R143). -/
theorem chainExponent_chain : chainExponent (repunit 11) chain = modulus - 2 := by decide +kernel

/-- Entry `j` of `powers`, for every index up to `n`, is `x` to the repunit of `2^j` ones. -/
def HoldsPowers (x : Element) (n : Nat) (powers : List Element) : Prop :=
  ∀ j ≤ n, IsPower x (repunit j) (powers.getD j 0)

theorem powersFrom_isPower {x q : Element} (n : Nat) {i : Nat} (hq : IsPower x (repunit i) q) :
    ∃ l, powersFrom n i q = some l ∧ ∀ j ≤ n, IsPower x (repunit (i + j)) (l.getD j 0) := by
  induction n generalizing i q with
  | zero =>
    refine ⟨[q], rfl, fun j hj => ?_⟩
    obtain rfl := Nat.le_zero.mp hj
    exact hq
  | succ n ih =>
    obtain ⟨q', hq', hpow⟩ := sqnMul_isPower (2 ^ i) hq hq
    rw [repunit_succ] at hpow
    obtain ⟨l, hl, hentry⟩ := ih hpow
    refine ⟨q :: l, by rw [powersFrom, hq']; simp only [hl], fun j hj => ?_⟩
    cases j with
    | zero => exact hq
    | succ j =>
      rw [List.getD_cons_succ, ← Nat.add_assoc, Nat.add_right_comm]
      exact hentry j (Nat.le_of_succ_le_succ hj)

theorem powersTable_holdsPowers (x : Element) : ∃ l, powersTable x = some l ∧ HoldsPowers x 11 l := by
  have hfirst : IsPower x (repunit 0) x := IsPower.one x
  obtain ⟨l, hl, hentry⟩ := powersFrom_isPower 11 hfirst
  exact ⟨l, hl, fun j hj => by simpa only [Nat.zero_add] using hentry j hj⟩

theorem runChain_isPower {x : Element} {n : Nat} {powers : List Element} (hp : HoldsPowers x n powers)
    {steps : List (Nat × Nat)} (hsteps : ∀ c ∈ steps, c.2 ≤ n) {r : Element} {e : Nat}
    (hr : IsPower x e r) :
    ∃ y, runChain powers steps r = some y ∧ IsPower x (chainExponent e steps) y := by
  induction steps generalizing r e with
  | nil => exact ⟨r, rfl, hr⟩
  | cons c rest ih =>
    obtain ⟨hc, hrest⟩ := List.forall_mem_cons.mp hsteps
    obtain ⟨q, hq, hpow⟩ := sqnMul_isPower c.1 hr (hp c.2 hc)
    obtain ⟨y, hy, hend⟩ := ih hrest hpow
    exact ⟨y, by rw [runChain, hq]; exact hy, hend⟩

/-- What `GetInverse` does (R143): no assertion fails, and the value is `x^(p−2)` modulo `p`. -/
theorem getInverse_eq (x : Element) : getInverse x = some (residue (x.toNat ^ (modulus - 2))) := by
  obtain ⟨l, hl, hpowers⟩ := powersTable_holdsPowers x
  obtain ⟨y, hy, hpow⟩ :=
    runChain_isPower hpowers (steps := chain) (by decide) (hpowers 11 (le_refl 11))
  have hinv : getInverse x = some y := by rw [getInverse, hl]; exact hy
  obtain ⟨z, hz, hlt⟩ := getInverse_yieldsCanonical x
  obtain rfl : y = z := Option.some.inj (hinv.symm.trans hz)
  rw [chainExponent_chain] at hpow
  rw [hinv, eq_residue hlt hpow]

/-! ### Division on values (R146) -/

/-- `x·y^(p−2)` modulo `p`. -/
def quotient (x y : Element) : Element := residue (x.toNat * y.toNat ^ (modulus - 2))

/-- `Divide` with the inverse named (R146). -/
theorem divide_of_inverse (x : Element) {y z : Element} (h : getInverse (canonical y) = some z) :
    divide x y = some (canonical (mulP (canonical x) z)) := by
  rw [divide, h]
  simp only [mulFold_eq]

/-- What `Divide` does (R146): both canonicalisations keep the residues, and the last one keeps a value
that is already canonical. -/
theorem divide_eq (x y : Element) : divide x y = some (quotient x y) := by
  have hinv : (residue ((canonical y).toNat ^ (modulus - 2))).toNat ≡
      y.toNat ^ (modulus - 2) [MOD modulus] := by
    rw [residue_toNat]; exact (Nat.mod_modEq _ _).trans ((canonical_modEq y).pow _)
  rw [divide_of_inverse x (getInverse_eq _), canonical_eq_residue, mulP_toNat, quotient,
    residue_congr ((Nat.mod_modEq _ _).trans ((canonical_modEq x).mul hinv))]

section Fermat

variable {y : Element} (hy : y.toNat ^ (modulus - 1) % modulus = 1)
include hy

/-- Fermat's premise in the form the cancellations use: `y^(p−2)` inverts `y`. -/
theorem pow_mul_self_modEq_one : y.toNat ^ (modulus - 2) * y.toNat ≡ 1 [MOD modulus] := by
  have hexp : modulus - 2 + 1 = modulus - 1 := by have := one_lt_modulus; omega
  rw [← pow_succ, hexp, Nat.ModEq, hy, Nat.mod_eq_of_lt one_lt_modulus]

/-- A divisor that meets the premise is not congruent to 0. -/
theorem mod_ne_zero_of_fermat : y.toNat % modulus ≠ 0 := fun hzero => by
  have hexp : modulus - 1 ≠ 0 := by have := one_lt_modulus; omega
  have hdvd : modulus ∣ y.toNat ^ (modulus - 1) := dvd_pow (Nat.dvd_of_mod_eq_zero hzero) hexp
  exact absurd ((Nat.mod_eq_zero_of_dvd hdvd).symm.trans hy) Nat.zero_ne_one

theorem mulP_quotient (x : Element) : mulP (quotient x y) y = residue x.toNat := by
  rw [mulP_eq_residue, quotient, residue_toNat]
  refine residue_congr (((Nat.mod_modEq _ _).mul_right _).trans ?_)
  rw [Nat.mul_assoc]
  simpa only [Nat.mul_one] using (pow_mul_self_modEq_one hy).mul_left x.toNat

theorem quotient_mulP (x : Element) : quotient (mulP x y) y = residue x.toNat := by
  rw [quotient, mulP_toNat]
  refine residue_congr (((Nat.mod_modEq _ _).mul_right _).trans ?_)
  rw [Nat.mul_assoc, Nat.mul_comm y.toNat]
  simpa only [Nat.mul_one] using (pow_mul_self_modEq_one hy).mul_left x.toNat

theorem quotient_self : quotient y y = residue 1 := by
  rw [quotient, Nat.mul_comm]
  exact residue_congr (pow_mul_self_modEq_one hy)

end Fermat

/-! ### The commands -/

/-- What `SQNMUL` does (R144). -/
theorem exec_sqnmul (rd rs : Reg) (k : Nat) (s : State) :
    exec (.sqnmul rd rs k) s =
      .next (s.setReg rd (residue ((s.reg rd).toNat ^ 2 ^ k * (s.reg rs).toNat))) := by
  rw [← State.finishField_some s rd (encode (.sqnmul rd rs k)), ← sqnMul_eq]
  rfl

theorem isZeroMod_iff (x : Element) : isZeroMod x = true ↔ x.toNat % modulus = 0 := decide_eq_true_iff

section Divisor

variable {rs : Reg} {s : State} (rd : Reg)

/-- What `INV` does to a source not congruent to 0 (R145). -/
theorem exec_inv (h : (s.reg rs).toNat % modulus ≠ 0) :
    exec (.inv rd rs) s = .next (s.setReg rd (residue ((s.reg rs).toNat ^ (modulus - 2)))) := by
  rw [← State.finishField_some s rd (encode (.inv rd rs)), ← getInverse_eq]
  exact if_neg (mt (isZeroMod_iff _).mp h)

/-- What `DIV` does with a divisor not congruent to 0 (R147). -/
theorem exec_div (h : (s.reg rs).toNat % modulus ≠ 0) :
    exec (.div rd rs) s = .next (s.setReg rd (quotient (s.reg rd) (s.reg rs))) := by
  rw [← State.finishField_some s rd (encode (.div rd rs)), ← divide_eq]
  exact if_neg (mt (isZeroMod_iff _).mp h)

/-- `DIV` of a register just written: the divisor is not what was written. -/
theorem exec_div_setReg (hrs : rs ≠ rd) (h : (s.reg rs).toNat % modulus ≠ 0) (v : Element) :
    exec (.div rd rs) (s.setReg rd v) = .next (s.setReg rd (quotient v (s.reg rs))) := by
  have hreg := s.setReg_reg_ne v hrs
  rw [exec_div rd (by rwa [hreg]), State.setReg_reg_self, hreg, State.setReg_setReg]

/-- What `INV` does to a source congruent to 0 (R148). -/
theorem exec_inv_zero (h : (s.reg rs).toNat % modulus = 0) :
    exec (.inv rd rs) s = .next (s.drawCanonical rd) :=
  if_pos ((isZeroMod_iff _).mpr h)

/-- What `DIV` does with a divisor congruent to 0 (R148). -/
theorem exec_div_zero (h : (s.reg rs).toNat % modulus = 0) :
    exec (.div rd rs) s = .next (s.drawCanonical rd) :=
  if_pos ((isZeroMod_iff _).mpr h)

end Divisor

/-! ### The obligations -/

/-- Settles O29. -/
theorem sqnmulSquaresKTimesThenMultiplies : Obligations.SqnmulSquaresKTimesThenMultiplies := by
  refine fun rd rs k s => ⟨rfl, _, exec_sqnmul rd rs k s, ?_, s.setReg_only rd _⟩
  rw [State.setReg_reg_self, residue_toNat]

/-- Settles O30. -/
theorem inverseChainRaisesToPMinusTwo : Obligations.InverseChainRaisesToPMinusTwo :=
  fun x => ⟨_, getInverse_eq x, residue_toNat _⟩

/-- Settles O31. -/
theorem invWritesThePower : Obligations.InvWritesThePower := by
  refine fun rd rs s h => ⟨_, exec_inv rd h, ?_, s.setReg_only rd _⟩
  rw [State.setReg_reg_self, residue_toNat]

/-- Settles O32. -/
theorem divWritesTheQuotient : Obligations.DivWritesTheQuotient := by
  refine fun rd rs s h => ⟨_, exec_div rd h, ?_, s.setReg_only rd _⟩
  rw [State.setReg_reg_self, quotient, residue_toNat]

/-- Settles O33: the three runs write the destination alone, and each value cancels by Fermat's premise. -/
theorem divisionUndoesMultiplication : Obligations.DivisionUndoesMultiplication := by
  intro rd rs s hne hy
  have hnz := mod_ne_zero_of_fermat hy
  refine ⟨⟨_, _, exec_mul rd rs s, exec_div_setReg rd hne.symm hnz _, ?_, s.setReg_only rd _⟩,
    ⟨_, _, exec_div rd hnz, exec_mul_setReg hne.symm s _, ?_, s.setReg_only rd _⟩,
    ⟨_, exec_div rs hnz, ?_, s.setReg_only rs _⟩⟩
  · rw [State.setReg_reg_self, quotient_mulP hy, residue_toNat]
  · rw [State.setReg_reg_self, mulP_quotient hy, residue_toNat]
  · rw [State.setReg_reg_self, quotient_self hy, residue_toNat, Nat.mod_eq_of_lt one_lt_modulus]

/-- Settles O34: the draw is canonicalised before it is written. -/
theorem zeroDivisorLeavesAnyCanonicalValue : Obligations.ZeroDivisorLeavesAnyCanonicalValue :=
  fun rd _ s h =>
    ⟨⟨_, exec_inv_zero rd h, s.drawCanonical_canonicalAt rd, s.drawCanonical_only rd⟩,
      ⟨_, exec_div_zero rd h, s.drawCanonical_canonicalAt rd, s.drawCanonical_only rd⟩⟩

end Sys2Proof.Machine
end

section
/-! PROOFS of the family 44_load_store.md. Inside operand memory, `LD`, `LDC` and `ST` each make one of the
named updates; the image loaded is the element with the 384 bytes read, and the image stored reads back
byte by byte, so a load after a store returns the element stored. -/

namespace Sys2Proof.Machine

/-! ### The image in operand memory (R44, R161, R163) -/

/-- Byte `k` of the image loaded is the byte at `addr + k`. -/
theorem State.loadImage_byte (s : State) (addr : Nat) {k : Nat} (hk : k < 384) :
    (s.loadImage addr).extractLsb' (8 * k) 8 = Memory.read s.omem (addr + k) := by
  have hlen : (Memory.readBytes s.omem addr imageBytes).length = 384 := Memory.readBytes_length _ _ _
  rw [State.loadImage, elementOf_byte hlen (hlen.symm ▸ hk), Memory.readBytes_getElem]

/-- The bytes at `addr` determine the image loaded. -/
theorem State.loadImage_eq {s : State} {addr : Nat} {v : Element}
    (h : ∀ k, k < 384 → v.extractLsb' (8 * k) 8 = Memory.read s.omem (addr + k)) :
    s.loadImage addr = v :=
  element_ext fun k hk => (s.loadImage_byte addr hk).trans (h k hk).symm

/-- The byte at `addr + k` is byte `k` of the element stored. -/
theorem State.storeImage_read_inside (s : State) (addr : Nat) (v : Element) {k : Nat} (hk : k < 384) :
    Memory.read (s.storeImage addr v).omem (addr + k) = v.extractLsb' (8 * k) 8 := by
  have hk' : k < (imageOf v).length := by rwa [imageOf_length]
  rw [State.storeImage_omem, Memory.read_writeBytes_inside _ _ _ k hk', imageOf_getElem]

/-- A store leaves every byte outside its 384 as it was. -/
theorem State.storeImage_read_outside (s : State) {addr a : Nat} (v : Element)
    (h : a < addr ∨ addr + 384 ≤ a) :
    Memory.read (s.storeImage addr v).omem a = Memory.read s.omem a :=
  Memory.read_writeBytes_outside _ _ _ (by rwa [imageOf_length])

/-- A load after a store of the same address returns the element stored (R164). -/
@[simp] theorem State.loadImage_storeImage (s : State) (addr : Nat) (v : Element) :
    (s.storeImage addr v).loadImage addr = v :=
  State.loadImage_eq fun _ hk => (s.storeImage_read_inside addr v hk).symm

/-! ### The commands -/

section Inside

variable {addr : Nat} {s : State} (rd : Reg) (h : s.imageFits addr)
include h

/-- What `LD` does inside operand memory. -/
theorem exec_ld : exec (.ld rd addr) s = .next (s.setReg rd (s.loadImage addr)) :=
  if_pos h

/-- What `LDC` does with an image `≥ p`: it writes `OV` alone. -/
theorem exec_ldc_of_le (hv : modulus ≤ (s.loadImage addr).toNat) :
    exec (.ldc rd addr) s = .next (s.setFlags (s.flags.withOv true)) :=
  (if_pos h).trans (if_pos ((isOverflow_iff _).mpr hv))

/-- What `LDC` does with a canonical image: it clears `OV` and loads the image. -/
theorem exec_ldc_of_lt (hv : (s.loadImage addr).toNat < modulus) :
    exec (.ldc rd addr) s =
      .next ((s.setFlags (s.flags.withOv false)).setReg rd (s.loadImage addr)) :=
  (if_pos h).trans (if_neg (mt (isOverflow_iff _).mp (Nat.not_le.mpr hv)))

/-- What `ST` does inside operand memory. -/
theorem exec_st : exec (.st rd addr) s = .next (s.storeImage addr (s.reg rd)) :=
  if_pos h

end Inside

/-- Outside operand memory each of the three takes the fault, and nothing else changes (R47, R178). -/
theorem exec_takes_omemRange {i : Instr} {rd : Reg} {addr : Nat} {s : State}
    (hi : i = .ld rd addr ∨ i = .ldc rd addr ∨ i = .st rd addr) (h : s.cfg.omemBytes < addr + 384) :
    ∃ t, exec i s = .next t ∧ FaultTaken .omemRange (encode i) s t :=
  ⟨_, exec_of_image_outside hi (Nat.not_le.mpr h), State.raiseFault_taken _ _ _⟩

/-! ### The obligations -/

/-- Settles O37. -/
theorem ldLoadsTheImage : Obligations.LdLoadsTheImage := by
  refine fun rd addr s => ⟨rfl, fun hin => ⟨_, exec_ld rd hin, fun k hk => ?_, s.setReg_only rd _⟩,
    exec_takes_omemRange (.inl rfl)⟩
  rw [State.setReg_reg_self, s.loadImage_byte addr hk]

/-- Settles O38: the bytes determine the image, and `LDC` branches on its value. -/
theorem ldcLoadsOnlyCanonicalImages : Obligations.LdcLoadsOnlyCanonicalImages := by
  refine fun rd addr s => ⟨rfl, fun hin v hbytes => ?_, exec_takes_omemRange (.inr (.inl rfl))⟩
  obtain rfl := State.loadImage_eq hbytes
  by_cases hv : modulus ≤ (s.loadImage addr).toNat
  · refine ⟨_, exec_ldc_of_le rd hin hv, ?_, rfl, rfl, fun _ _ => rfl, fun _ => rfl, rfl⟩
    rw [if_pos hv]
    exact ⟨rfl, rfl⟩
  · refine ⟨_, exec_ldc_of_lt rd hin (Nat.not_le.mp hv), ?_, rfl, rfl,
      fun _ hr => State.setReg_reg_ne _ _ hr, fun _ => rfl, rfl⟩
    rw [if_neg hv]
    exact ⟨rfl, State.setReg_reg_self _ _ _⟩

/-- Settles O39. -/
theorem stStoresTheImage : Obligations.StStoresTheImage :=
  fun rd addr s =>
    ⟨rfl, fun hin => ⟨_, exec_st rd hin, fun _ hk => s.storeImage_read_inside addr _ hk,
      fun _ ha => s.storeImage_read_outside _ ha, rfl⟩, exec_takes_omemRange (.inr (.inr rfl))⟩

/-- Settles O40: both loads read back the element stored, which `LDC` tests. -/
theorem storeThenLoadRestoresTheValue : Obligations.StoreThenLoadRestoresTheValue := by
  intro rs rd addr s t hin hst
  rw [exec_st rs hin] at hst
  obtain rfl := Host.Outcome.next.inj hst
  have hfits : (s.storeImage addr (s.reg rs)).imageFits addr := hin
  have hload := s.loadImage_storeImage addr (s.reg rs)
  refine ⟨⟨_, exec_ld rd hfits, ?_⟩, fun hlt => ⟨_, exec_ldc_of_lt rd hfits (by rwa [hload]), ?_, rfl⟩⟩
  · rw [State.setReg_reg_self, hload]
  · rw [State.setReg_reg_self, hload]

end Sys2Proof.Machine
end

section
/-! PROOFS of the family 60_exceptions.md, what a command can do to the fault record: it leaves
`STATUS.FAULT` alone, or it raises a fault of its own kind and does nothing else (R172, R174). No field
command fails an assertion, so none raises `INVARIANT` (R129, R179). -/

namespace Sys2Proof.Machine

/-! ### What the updates leave alone: `STATUS.FAULT` and the events to come -/

/-- Neither `STATUS.FAULT` nor the events still to come differ. -/
structure KeepsFault (s t : State) : Prop where
  fault  : t.fault = s.fault
  script : t.script = s.script

theorem State.setReg_keepsFault (s : State) (r : Reg) (v : Element) : KeepsFault s (s.setReg r v) :=
  ⟨State.setReg_fault s r v, State.setReg_script s r v⟩

theorem State.setFlags_keepsFault (s : State) (f : Flags) : KeepsFault s (s.setFlags f) :=
  ⟨State.setFlags_fault s f, State.setFlags_script s f⟩

theorem State.drawCanonical_keepsFault (s : State) (r : Reg) : KeepsFault s (s.drawCanonical r) :=
  ⟨State.drawCanonical_fault s r, State.drawCanonical_script s r⟩

theorem State.storeImage_keepsFault (s : State) (addr : Nat) (v : Element) :
    KeepsFault s (s.storeImage addr v) :=
  ⟨State.storeImage_fault s addr v, State.storeImage_script s addr v⟩

theorem State.setAccum_keepsFault (s : State) (k : AccSel) (a : Acc) : KeepsFault s (s.setAccum k a) :=
  ⟨State.setAccum_fault s k a, State.setAccum_script s k a⟩

theorem State.accumulate_keepsFault (s : State) (k : AccSel) (r : AccResult) :
    KeepsFault s (s.accumulate k r) := by
  rw [State.accumulate_eq]
  exact ⟨State.setAccum_fault s k _, State.setAccum_script s k _⟩

theorem State.extract_keepsFault (s : State) (k : AccSel) (r : Reg) (i : Nat) (x : Extracted) :
    KeepsFault s (s.extract k r i x) := by
  rw [State.extract_eq]
  exact ⟨State.setAccum_fault s k _, State.setAccum_script s k _⟩

/-- A field operation whose assertions hold ends in its result, not in `INVARIANT`. -/
theorem State.finishField_keepsFault (s : State) (rd : Reg) (w : Word) {result : Option Element}
    (h : YieldsCanonical result) : KeepsFault s (s.finishField rd w result) := by
  obtain ⟨v, rfl, _⟩ := h
  exact ⟨rfl, rfl⟩

/-! ### What a command can do -/

/-- The fault a command can raise: `LIMB_INDEX` at the limb level (R177), `OMEM_RANGE` by `LD`, `LDC` and
`ST` (R178). -/
def CanRaise (i : Instr) (c : Cause) : Prop :=
  c = .limbIndex ∧ elementLevel i = false ∨ c = .omemRange ∧ reachesMemory i = true

/-- The two ends of a command: no fault is taken, or one it can raise is, by its own word, and nothing
else is done. -/
def KeepsOrRaises (i : Instr) (s t : State) : Prop :=
  KeepsFault s t ∨ ∃ c, CanRaise i c ∧ t = s.raiseFault c (encode i)

/-- The end of a limb-level command with an index out of range. -/
theorem raises_limbIndex {i : Instr} (hi : elementLevel i = false) (s : State) :
    OnNext (KeepsOrRaises i s) (.next (s.raiseFault .limbIndex (encode i))) :=
  .next (.inr ⟨_, .inl ⟨rfl, hi⟩, rfl⟩)

/-- The end of a memory command with an image out of range. -/
theorem raises_omemRange {i : Instr} (hi : reachesMemory i = true) (s : State) :
    OnNext (KeepsOrRaises i s) (.next (s.raiseFault .omemRange (encode i))) :=
  .next (.inr ⟨_, .inr ⟨rfl, hi⟩, rfl⟩)

/-- Every command, by the branches of its meaning: the check of its operands first, then its update. -/
theorem exec_keepsOrRaises (i : Instr) (s : State) : OnNext (KeepsOrRaises i s) (exec i s) := by
  cases i with
  | nop => exact .next (.inl ⟨rfl, rfl⟩)
  | setone | cpy | fred | canon => exact .next (.inl (s.setReg_keepsFault _ _))
  | isovf | cmpeq | clrflg => exact .next (.inl (s.setFlags_keepsFault _))
  | mul | sqr => exact .next (.inl (s.finishField_keepsFault _ _ (mulFold_yieldsCanonical _ _)))
  | sqnmul => exact .next (.inl (s.finishField_keepsFault _ _ (sqnMul_yieldsCanonical _ _ _)))
  | inv =>
    exact .ite (fun _ => .next (.inl (s.drawCanonical_keepsFault _)))
      (fun _ => .next (.inl (s.finishField_keepsFault _ _ (getInverse_yieldsCanonical _))))
  | div =>
    exact .ite (fun _ => .next (.inl (s.drawCanonical_keepsFault _)))
      (fun _ => .next (.inl (s.finishField_keepsFault _ _ (divide_yieldsCanonical _ _))))
  | ld =>
    exact .ite (fun _ => .next (.inl (s.setReg_keepsFault _ _))) (fun _ => raises_omemRange rfl s)
  | ldc =>
    exact .ite
      (fun _ => .ite (fun _ => .next (.inl (s.setFlags_keepsFault _)))
        (fun _ => .next (.inl ⟨rfl, rfl⟩)))
      (fun _ => raises_omemRange rfl s)
  | st =>
    exact .ite (fun _ => .next (.inl (s.storeImage_keepsFault _ _))) (fun _ => raises_omemRange rfl s)
  | clracc t => exact .next (.inl (s.setAccum_keepsFault t _))
  | mul2 t =>
    exact .ite (fun _ => .next (.inl (s.setAccum_keepsFault t _))) (fun _ => raises_limbIndex rfl s)
  | muladd3 t | muldbladd3 t =>
    exact .ite (fun _ => .next (.inl (s.accumulate_keepsFault t _))) (fun _ => raises_limbIndex rfl s)
  | mulnadd3 | muln2 => exact .next (.inl (s.accumulate_keepsFault .acc _))
  | extract3 t =>
    exact .ite (fun _ => .next (.inl (s.extract_keepsFault t _ _ _))) (fun _ => raises_limbIndex rfl s)
  | addnextract2 =>
    exact .ite (fun _ => .next (.inl (s.extract_keepsFault .acc _ _ _)))
      (fun _ => raises_limbIndex rfl s)

/-- Settles O52: a clean engine that ends faulted raised a fault, and the command's own word is the word
that decoded to it. -/
theorem faultsArePreciseAndNeverInvariant : Obligations.FaultsArePreciseAndNeverInvariant := by
  intro w i s t hdecode hclean hexec hfault
  obtain ⟨hword, _⟩ := encodeOfDecodeIsTheWord w i hdecode
  rcases exec_keepsOrRaises i s t hexec with hkeeps | ⟨c, hcan, rfl⟩
  · rw [hkeeps.fault, hclean] at hfault
    cases hfault
  · rw [hword]
    exact ⟨hcan, State.raiseFault_taken s c w⟩

/-! ### A limb index out of range (R70, R177) -/

/-- `LIMBS` is `3072 / W` (R8). -/
theorem State.not_indexOk_of_le {s : State} {i : Nat} (h : 3072 / s.cfg.width.bits ≤ i) :
    ¬ s.indexOk i := by
  rw [State.indexOk, limbs_eq]; exact Nat.not_lt.mpr h

/-- The commands with two limb indices take the fault where either is out of range. -/
theorem exec_of_index_outside {k : AccSel} {ra rb : Reg} {ia ib : Nat} {s : State} {i : Instr}
    (hi : i = .mul2 k ra ia rb ib ∨ i = .muladd3 k ra ia rb ib ∨ i = .muldbladd3 k ra ia rb ib ∨
      i = .addnextract2 ra ia rb ib) (h : ¬ (s.indexOk ia ∧ s.indexOk ib)) :
    exec i s = .next (s.raiseFault .limbIndex (encode i)) := by
  rcases hi with rfl | rfl | rfl | rfl <;> exact if_neg h

/-- `EXTRACT3` uses one index (R177). -/
theorem exec_extract3_of_index_outside {ia : Nat} {s : State} (k : AccSel) (ra : Reg) (h : ¬ s.indexOk ia) :
    exec (.extract3 k ra ia) s = .next (s.raiseFault .limbIndex (encode (.extract3 k ra ia))) :=
  if_neg h

/-- Settles O50. -/
theorem limbIndexOutOfRangeRaisesLimbIndex : Obligations.LimbIndexOutOfRangeRaisesLimbIndex := by
  intro k ra ia rb ib s i h
  have hexec : exec i s = .next (s.raiseFault .limbIndex (encode i)) := by
    rcases h with ⟨hout, hi⟩ | ⟨hout, rfl⟩
    · refine exec_of_index_outside hi fun ⟨hia, hib⟩ => ?_
      rcases hout with hout | hout
      · exact State.not_indexOk_of_le hout hia
      · exact State.not_indexOk_of_le hout hib
    · exact exec_extract3_of_index_outside k ra (State.not_indexOk_of_le hout)
  exact ⟨_, hexec, rfl, rfl, rfl, State.raiseFault_taken _ _ _⟩

end Sys2Proof.Machine
end

section
/-! PROOFS of the family 60_exceptions.md, the faulted engine (R173, R183): no event but a reset changes
anything but operand memory and the host's reply, so along a run with no reset the fault stays. -/

namespace Sys2Proof.Machine

/-! ### One event -/

/-- A faulted engine drops the word, and every other event but a reset is the host's own. -/
theorem hostAct_of_fault {s : State} (hs : s.fault = true) {a : HostAction} (ha : a.isReset = false) :
    OnNext (fun t => t = { s with omem := t.omem, reply := t.reply }) (hostAct a s) := by
  cases a with
  | csrRead n => exact .next rfl
  | csrWrite n w => exact .ite (fun _ => issue_of_fault hs w ▸ .next rfl) (fun _ => .next rfl)
  | omemRead addr n => exact .ite (fun _ => .next rfl) (fun _ => .fault _)
  | omemWrite addr bs => exact .ite (fun _ => .next rfl) (fun _ => .fault _)
  | reset d => cases ha

/-- Settles O7: the host's reads and writes have in every state the values they have here. -/
theorem faultedEngineDropsCommands : Obligations.FaultedEngineDropsCommands := by
  intro s a rest hscript hs
  have hs' : ({ s with script := rest } : State).fault = true := hs
  refine ⟨?_, ?_, ?_, ?_, fun t ha ht => ?_⟩
  · rintro w rfl
    rw [step_of_script hscript, hostAct_csrWrite_cmd, issue_of_fault hs']
  · rintro n rfl
    exact (controlRegisterAccesses s n 0 rest).1 hscript
  · rintro addr n rfl hfit
    exact hostReadReturnsTheBytes s addr n rest hscript hfit
  · rintro addr bs rfl hfit
    obtain ⟨t, ht, hbytes, _⟩ := hostWriteStoresItsBytes s addr bs rest hscript hfit
    exact ⟨t, ht, hbytes⟩
  · rw [step_of_script hscript] at ht
    exact hostAct_of_fault hs' ha t ht

/-! ### The stream of events -/

theorem step_of_script_nil {s : State} (h : s.script = []) : step s = .next s := by
  simp [step, nextEvent, h]

/-- Settles O8. -/
theorem idleEngineKeepsItsState : Obligations.IdleEngineKeepsItsState := fun _ => step_of_script_nil

theorem exec_script (i : Instr) (s : State) : OnNext (·.script = s.script) (exec i s) := by
  intro t ht
  rcases exec_keepsOrRaises i s t ht with hkeeps | ⟨c, _, rfl⟩
  · exact hkeeps.script
  · exact s.raiseFault_script c _

theorem issue_script (w : Word) (s : State) : OnNext (·.script = s.script) (issue w s) := by
  cases hs : s.fault with
  | true => rw [issue_of_fault hs]; exact .next rfl
  | false =>
    cases hw : decode w with
    | ok i => rw [issue_of_decode hs hw]; exact exec_script i s
    | error e =>
      obtain ⟨bad⟩ := e
      rw [issue_of_reject hs hw]
      exact .next rfl

theorem hostAct_script (a : HostAction) (s : State) : OnNext (·.script = s.script) (hostAct a s) := by
  cases a with
  | csrRead n => exact .next rfl
  | csrWrite n w => exact .ite (fun _ => issue_script w s) (fun _ => .next rfl)
  | omemRead addr n => exact .ite (fun _ => .next rfl) (fun _ => .fault _)
  | omemWrite addr bs => exact .ite (fun _ => .next rfl) (fun _ => .fault _)
  | reset d => exact .next rfl

/-- A step takes the first event off the stream and leaves the rest (R52). -/
theorem step_script (s : State) : OnNext (·.script = s.script.tail) (step s) := by
  cases hscript : s.script with
  | nil => rw [step_of_script_nil hscript]; exact .next hscript
  | cons a rest => rw [step_of_script hscript]; exact hostAct_script a _

/-- No event still to come is a reset. -/
def NoReset (s : State) : Prop := ∀ a ∈ s.script, a.isReset = false

theorem step_noReset {s : State} (h : NoReset s) : OnNext NoReset (step s) := by
  intro t ht a ha
  rw [step_script s t ht] at ha
  exact h a (List.mem_of_mem_tail ha)

/-! ### Runs -/

section Runs

variable {M : Host.Core} {s t : M.State}

/-- A run that answers a state made its first step, and the rest is a run from there. -/
theorem run_succ_eq_next_iff {k : Nat} :
    M.run (k + 1) s = .next t ↔ ∃ u, M.step s = .next u ∧ M.run k u = .next t := by
  rw [Host.Core.run]
  cases M.step s with
  | next u => simp
  | fault | refused => simp

/-- A run of `j + k` steps is a run of `j` steps, then one of `k`. -/
theorem run_add {j k : Nat} (h : M.run (j + k) s = .next t) :
    ∃ u, M.run j s = .next u ∧ M.run k u = .next t := by
  induction j generalizing s with
  | zero => exact ⟨s, rfl, by rwa [Nat.zero_add] at h⟩
  | succ j ih =>
    rw [Nat.succ_add] at h
    obtain ⟨v, hstep, hrest⟩ := run_succ_eq_next_iff.mp h
    obtain ⟨u, hu, ht⟩ := ih hrest
    exact ⟨u, run_succ_eq_next_iff.mpr ⟨v, hstep, hu⟩, ht⟩

end Runs

/-- What every step keeps, every run keeps. -/
theorem run_keeps {P : State → Prop} (hstep : ∀ s, P s → OnNext P (step s)) (k : Nat) {s : State}
    (hs : P s) : OnNext P (Sys2Proof.core.run k s) := by
  induction k generalizing s with
  | zero => exact .next hs
  | succ k ih =>
    intro t ht
    obtain ⟨u, hu, hrest⟩ := run_succ_eq_next_iff.mp ht
    exact ih (hstep s hs u hu) t hrest

theorem run_noReset (k : Nat) {s : State} (h : NoReset s) : OnNext NoReset (Sys2Proof.core.run k s) :=
  run_keeps (fun _ => step_noReset) k h

/-! ### The fault along a run (R173, R183) -/

/-- From the faulted state `s`, the engine has changed nothing but operand memory, the host's reply and
the events to come. -/
def HeldFaulted (s t : State) : Prop :=
  s.fault = true ∧ t = { s with omem := t.omem, reply := t.reply, script := t.script }

theorem HeldFaulted.fault {s t : State} (h : HeldFaulted s t) : t.fault = true := by
  rw [h.2]; exact h.1

theorem HeldFaulted.trans {s t u : State} (h : HeldFaulted s t) (k : HeldFaulted t u) :
    HeldFaulted s u :=
  ⟨h.1, by rw [k.2, h.2]⟩

theorem step_heldFaulted {s : State} (hs : s.fault = true) (h : NoReset s) :
    OnNext (HeldFaulted s) (step s) := by
  cases hscript : s.script with
  | nil => rw [step_of_script_nil hscript]; exact .next ⟨hs, rfl⟩
  | cons a rest =>
    intro t ht
    have ha : a.isReset = false := h a (hscript ▸ List.mem_cons_self)
    obtain ⟨_, _, _, _, hframe⟩ := faultedEngineDropsCommands s a rest hscript hs
    have heq := hframe t ha ht
    exact ⟨hs, by rw [heq]⟩

theorem run_heldFaulted (k : Nat) {s : State} (hs : s.fault = true) (h : NoReset s) :
    OnNext (HeldFaulted s) (Sys2Proof.core.run k s) := by
  have hstep (u : State) (hu : HeldFaulted s u ∧ NoReset u) :
      OnNext (fun t => HeldFaulted s t ∧ NoReset t) (step u) := fun t ht =>
    ⟨hu.1.trans (step_heldFaulted hu.1.fault hu.2 t ht), step_noReset hu.2 t ht⟩
  exact fun t ht => (run_keeps hstep k ⟨⟨hs, rfl⟩, h⟩ t ht).1

/-- Settles O53. -/
theorem faultIsStickyUntilReset : Obligations.FaultIsStickyUntilReset := by
  intro k s t hreset hs hrun
  obtain ⟨_, hheld⟩ := run_heldFaulted k hs hreset t hrun
  rw [hheld]
  exact ⟨hs, rfl, rfl, rfl, rfl, rfl, rfl⟩

/-- A run with no reset that ends clean started clean: a fault at its start would still be there. -/
theorem clean_of_run_clean {k : Nat} {s t : State} (h : NoReset s)
    (hrun : Sys2Proof.core.run k s = .next t) (ht : t.fault = false) : s.fault = false := by
  by_contra hs
  have hfault := (run_heldFaulted k (Bool.eq_true_of_not_eq_false hs) h t hrun).fault
  rw [ht] at hfault
  cases hfault

/-- Settles O54: both the run and the part of it after `j` steps end clean. -/
theorem cleanRunsAreCleanThroughout : Obligations.CleanRunsAreCleanThroughout := by
  intro j k s t hreset hrun ht
  obtain ⟨u, hu, hrest⟩ := run_add hrun
  have hu_clean := clean_of_run_clean (run_noReset j hreset u hu) hrest ht
  exact ⟨u, ⟨clean_of_run_clean hreset hrun ht, hu, hu_clean⟩, hu_clean, hrest, ht⟩

end Sys2Proof.Machine
end
